-- ==== Sys2Proof/Word.lean ====
section
/-! DEFINITION. The machine's word types (00_scope.md R7, R9, R10; 30_encoding.md R71).
Every quantity of this ISA is unsigned: no rule sign-extends (R9). Widths are the spec's own. -/

namespace Sys2Proof

/-- An 8-bit unsigned value: a general register, a timer, a byte of memory, an immediate kk (R7, R73). -/
abbrev Byte := BitVec 8

/-- A 16-bit unsigned value: an opcode, I, pc, a return address (R7). -/
abbrev Word := BitVec 16

/-- A 4-bit register index, cut from an opcode, so never out of range (10_state.md R21). -/
abbrev Reg := BitVec 4

/-- A 12-bit address nnn, cut from an opcode (30_encoding.md R73). -/
abbrev Addr12 := BitVec 12

/-- VF, the flag register, is register 15 (10_state.md R23). -/
def VF : Reg := 15#4

end Sys2Proof
end

