-- ==== Sys2Proof/Config.lean ====
section
/-! DEFINITION. What an implementation fixes (the parameters of 00_scope.md R8) and the free values.
The parameters are plain data that State carries (log entry 1), so that a statement about every state holds
for every legal value of them, as R8 asks. The free values are opaque: nothing in Lean can evaluate one. -/

namespace Sys2Proof

/-- `P_FLAG_ORDER` (42_alu.md R139): which of the two writes of 8xy4 to 8xyE comes last. -/
inductive FlagOrder where
  | sequential
  | flagLast
  deriving DecidableEq, Repr, Inhabited

/-- The waveform parameters of 00_scope.md R8, all OPEN in the spec. The two rationals are exact quotients of
naturals; `sampleBits` is the width of the signed integer type `P_SAMPLE_TYPE`. -/
structure WaveParams where
  sampleRate : Nat
  toneNum : Nat
  toneDen : Nat
  amplitude : Nat
  durNum : Nat
  durDen : Nat
  sampleBits : Nat
  deriving DecidableEq, Repr, Inhabited

/-- The parameters of 00_scope.md R8, and the grain of the model's time unit (log entry 5). -/
structure Params where
  /-- `P_CPU_HZ`: CPU ticks per second. -/
  cpuHz : Nat
  /-- `P_STACK_CAPACITY`. -/
  stackCapacity : Nat
  /-- `P_FONT_BASE`. -/
  fontBase : Nat
  /-- `P_FONT_DATA`: 80 bytes, glyph d at offsets 5d to 5d+4. -/
  fontData : List Byte
  /-- `P_FLAG_ORDER`. -/
  flagOrder : FlagOrder
  /-- `P_ENABLE_EXA1`. -/
  enableExA1 : Bool
  /-- `P_SAMPLE_RATE`, `P_TONE_HZ`, `P_AMPLITUDE`, `P_DURATION`, `P_SAMPLE_TYPE`. -/
  waveform : WaveParams
  /-- The model's own: time is counted in units of 1/(lcm(60, P_CPU_HZ)·timeGrain) s. -/
  timeGrain : Nat
  deriving DecidableEq, Repr

/-- Free value: the OPEN waveform parameters (00_scope.md R8; log entry 9). -/
opaque Config.waveChoice : WaveParams

/-- Free value: the answer of the host's random source to the n-th request, any byte (42_alu.md R151). -/
opaque Config.randomByte : Nat → Byte

/-- Free value: which value of `playing` a pull reads when both were held in the window of
60_exceptions.md R256. -/
opaque Config.stalePlaying : Nat → Bool

/-- A move of a host agent, taken between two ticks (60_exceptions.md R257, R258; 20_memory.md R68). -/
inductive HostMove where
  /-- `elapsed(Δ)`: one scheduler iteration begins (R242); Δ in the model's time units (log entry 5). -/
  | elapsed (delta : Nat)
  /-- `set_key(k, p)` (R250); an index above 15 is no move of the host. -/
  | setKey (k : Fin 16) (pressed : Bool)
  /-- `pull()` by the audio agent (R255). -/
  | pull
  /-- `quit()` (R258, R260). -/
  | quit
  /-- The model's own: the host stays silent at this boundary, so the next due tick runs (log entry 6). -/
  | letRun
  deriving DecidableEq, Repr, Inhabited

/-- The frame buffer, 32 rows of 64 pixels, row 0 at the top and column 0 at the left (10_state.md R34). -/
abbrev Frame := Vector (Vector Bool 64) 32

/-- Everything of the machine but `status`: what a fatal error leaves unspecified (40_execute_cycle.md R107). -/
structure Wreckage where
  v : Vector Byte 16
  i : Word
  pc : Word
  stack : List Word
  dt : Byte
  st : Byte
  playing : Bool
  fb : Frame
  keys : Vector Bool 16
  cells : List Host.Cell
  wave : List Int
  cursor : Nat
  accTimer : Nat
  accCpu : Nat
  deriving DecidableEq, Repr, Inhabited

/-- Free value: the state after the n-th fatal error (40_execute_cycle.md R107, U3; log entry 3). -/
opaque Config.wreckage : Nat → Wreckage

/-- Free value: the host's move when it has decided none and no tick is due (60_exceptions.md R259, U14;
log entry 6). -/
opaque Config.hostMove : Nat → HostMove

end Sys2Proof
end

