-- ==== Sys2Proof/Syntax.lean ====
section
/-! DEFINITION. The instructions: one constructor per row of spec/opcode_table.json (30_encoding.md R77), the
optional ExA1 among them. Field widths are those of R71, so no field can hold a value the word cannot. -/

namespace Sys2Proof

/-- The 32 rows of the opcode table, in the order of the table. -/
inductive Instr where
  /-- 00E0 CLS (44_display.md R190) -/
  | cls
  /-- 00EE RET (41_flow.md R120) -/
  | ret
  /-- 1nnn JP nnn (R121) -/
  | jp (nnn : Addr12)
  /-- 2nnn CALL nnn (R122) -/
  | call (nnn : Addr12)
  /-- 3xkk SE Vx, kk (R123) -/
  | seImm (x : Reg) (kk : Byte)
  /-- 4xkk SNE Vx, kk (R124) -/
  | sneImm (x : Reg) (kk : Byte)
  /-- 6xkk LD Vx, kk (42_alu.md R140) -/
  | ldImm (x : Reg) (kk : Byte)
  /-- 7xkk ADD Vx, kk (R141) -/
  | addImm (x : Reg) (kk : Byte)
  /-- 8xy0 LD Vx, Vy (R142) -/
  | ldReg (x y : Reg)
  /-- 8xy1 OR Vx, Vy (R143) -/
  | orReg (x y : Reg)
  /-- 8xy2 AND Vx, Vy (R144) -/
  | andReg (x y : Reg)
  /-- 8xy3 XOR Vx, Vy (R145) -/
  | xorReg (x y : Reg)
  /-- 8xy4 ADD Vx, Vy (R146) -/
  | addReg (x y : Reg)
  /-- 8xy5 SUB Vx, Vy (R147) -/
  | sub (x y : Reg)
  /-- 8xy6 SHR Vx; y is encoded and not read (R148, 30_encoding.md R74) -/
  | shr (x y : Reg)
  /-- 8xy7 SUBN Vx, Vy (R149) -/
  | subn (x y : Reg)
  /-- 8xyE SHL Vx; y is encoded and not read (R150, 30_encoding.md R74) -/
  | shl (x y : Reg)
  /-- 9xy0 SNE Vx, Vy (41_flow.md R125) -/
  | sneReg (x y : Reg)
  /-- Annn LD I, nnn (43_index_memory.md R170) -/
  | ldI (nnn : Addr12)
  /-- Cxkk RND Vx, kk (42_alu.md R151) -/
  | rnd (x : Reg) (kk : Byte)
  /-- Dxyn DRW Vx, Vy, n (44_display.md R191) -/
  | drw (x y : Reg) (n : BitVec 4)
  /-- Ex9E SKP Vx (45_timers_keys.md R200) -/
  | skp (x : Reg)
  /-- ExA1 SKNP Vx, only when `P_ENABLE_EXA1` (R201) -/
  | sknp (x : Reg)
  /-- Fx07 LD Vx, DT (R202) -/
  | ldVxDt (x : Reg)
  /-- Fx0A LD Vx, K (R203) -/
  | ldVxK (x : Reg)
  /-- Fx15 LD DT, Vx (R204) -/
  | ldDtVx (x : Reg)
  /-- Fx18 LD ST, Vx (R205) -/
  | ldStVx (x : Reg)
  /-- Fx1E ADD I, Vx (43_index_memory.md R171) -/
  | addIVx (x : Reg)
  /-- Fx29 LD F, Vx (R172) -/
  | ldFVx (x : Reg)
  /-- Fx33 LD B, Vx (R173) -/
  | ldBVx (x : Reg)
  /-- Fx55 LD [I], Vx (R174) -/
  | ldMemVx (x : Reg)
  /-- Fx65 LD Vx, [I] (R175) -/
  | ldVxMem (x : Reg)
  deriving DecidableEq, Repr

end Sys2Proof
end

