-- ==== Sys2Proof/WellFormed.lean ====
section
/-! DEFINITION. Which instructions exist on a machine. Every operand value of every field is legal
(30_encoding.md R73, R74), so the one check is the optional instruction's (R79, 45_timers_keys.md R201). -/

namespace Sys2Proof

/-- SKNP exists only where `P_ENABLE_EXA1` is true; every other term is an instruction of every machine. -/
def WellFormed (exA1 : Bool) (i : Instr) : Bool :=
  match i with
  | .sknp _ => exA1
  | .cls | .ret | .jp _ | .call _ | .seImm _ _ | .sneImm _ _ | .ldImm _ _ | .addImm _ _ => true
  | .ldReg _ _ | .orReg _ _ | .andReg _ _ | .xorReg _ _ | .addReg _ _ | .sub _ _ | .shr _ _ => true
  | .subn _ _ | .shl _ _ | .sneReg _ _ | .ldI _ | .rnd _ _ | .drw _ _ _ | .skp _ | .ldVxDt _ => true
  | .ldVxK _ | .ldDtVx _ | .ldStVx _ | .addIVx _ | .ldFVx _ | .ldBVx _ | .ldMemVx _ | .ldVxMem _ => true

end Sys2Proof
end

