-- ==== Sys2Proof/Decode.lean ====
section
/-! DEFINITION. The decode map of 30_encoding.md R75, total on 16-bit words, and the encoder written from the
patterns and formats of R71, R72 and R77. -/

namespace Sys2Proof

/-- The one way decoding fails: the word matches no row (30_encoding.md R75, R78). -/
inductive DecodeError where
  | unknownOpcode (op : Word)
  deriving DecidableEq, Repr

/-- x = op[11:8] (30_encoding.md R71). -/
def fieldX (op : Word) : Reg := op.extractLsb' 8 4

/-- y = op[7:4] (R71). -/
def fieldY (op : Word) : Reg := op.extractLsb' 4 4

/-- n = op[3:0], also the selector f4 of the 8xy_ and 9xy_ rows (R71, R75). -/
def fieldN (op : Word) : BitVec 4 := op.extractLsb' 0 4

/-- kk = op[7:0], also the selector f8 of the Ex__ and Fx__ rows (R71, R75). -/
def fieldKk (op : Word) : Byte := op.extractLsb' 0 8

/-- nnn = op[11:0] (R71). -/
def fieldNnn (op : Word) : Addr12 := op.extractLsb' 0 12

/-- The 0x0 row of R75: 00E0 and 00EE only, the canonical assignment of R76. -/
def decodeZero (op : Word) : Except DecodeError Instr :=
  if op = 0x00E0#16 then .ok .cls
  else if op = 0x00EE#16 then .ok .ret
  else .error (.unknownOpcode op)

/-- The 0x8 row of R75, by f4. -/
def decodeEight (op : Word) : Except DecodeError Instr :=
  match (fieldN op).toNat with
  | 0x0 => .ok (.ldReg (fieldX op) (fieldY op))
  | 0x1 => .ok (.orReg (fieldX op) (fieldY op))
  | 0x2 => .ok (.andReg (fieldX op) (fieldY op))
  | 0x3 => .ok (.xorReg (fieldX op) (fieldY op))
  | 0x4 => .ok (.addReg (fieldX op) (fieldY op))
  | 0x5 => .ok (.sub (fieldX op) (fieldY op))
  | 0x6 => .ok (.shr (fieldX op) (fieldY op))
  | 0x7 => .ok (.subn (fieldX op) (fieldY op))
  | 0xE => .ok (.shl (fieldX op) (fieldY op))
  | _ => .error (.unknownOpcode op)

/-- The 0x9 row of R75: f4 = 0 only. -/
def decodeNine (op : Word) : Except DecodeError Instr :=
  if fieldN op = 0#4 then .ok (.sneReg (fieldX op) (fieldY op)) else .error (.unknownOpcode op)

/-- The 0xE row of R75, by f8; ExA1 only where `P_ENABLE_EXA1` (R79). -/
def decodeE (exA1 : Bool) (op : Word) : Except DecodeError Instr :=
  if fieldKk op = 0x9E#8 then .ok (.skp (fieldX op))
  else if fieldKk op = 0xA1#8 ∧ exA1 = true then .ok (.sknp (fieldX op))
  else .error (.unknownOpcode op)

/-- The 0xF row of R75, by f8. -/
def decodeF (op : Word) : Except DecodeError Instr :=
  if fieldKk op = 0x07#8 then .ok (.ldVxDt (fieldX op))
  else if fieldKk op = 0x0A#8 then .ok (.ldVxK (fieldX op))
  else if fieldKk op = 0x15#8 then .ok (.ldDtVx (fieldX op))
  else if fieldKk op = 0x18#8 then .ok (.ldStVx (fieldX op))
  else if fieldKk op = 0x1E#8 then .ok (.addIVx (fieldX op))
  else if fieldKk op = 0x29#8 then .ok (.ldFVx (fieldX op))
  else if fieldKk op = 0x33#8 then .ok (.ldBVx (fieldX op))
  else if fieldKk op = 0x55#8 then .ok (.ldMemVx (fieldX op))
  else if fieldKk op = 0x65#8 then .ok (.ldVxMem (fieldX op))
  else .error (.unknownOpcode op)

/-- R75: "Decode by the topmost 4-bit nibble, then by secondary nibbles/bytes". Decoding reads nothing but the
word and `P_ENABLE_EXA1` (40_execute_cycle.md R104). -/
def decode (exA1 : Bool) (op : Word) : Except DecodeError Instr :=
  match (op.extractLsb' 12 4).toNat with
  | 0x0 => decodeZero op
  | 0x1 => .ok (.jp (fieldNnn op))
  | 0x2 => .ok (.call (fieldNnn op))
  | 0x3 => .ok (.seImm (fieldX op) (fieldKk op))
  | 0x4 => .ok (.sneImm (fieldX op) (fieldKk op))
  | 0x6 => .ok (.ldImm (fieldX op) (fieldKk op))
  | 0x7 => .ok (.addImm (fieldX op) (fieldKk op))
  | 0x8 => decodeEight op
  | 0x9 => decodeNine op
  | 0xA => .ok (.ldI (fieldNnn op))
  | 0xC => .ok (.rnd (fieldX op) (fieldKk op))
  | 0xD => .ok (.drw (fieldX op) (fieldY op) (fieldN op))
  | 0xE => decodeE exA1 op
  | 0xF => decodeF op
  | _ => .error (.unknownOpcode op)

/-- The opcode from the byte at pc and the byte at pc + 1, big-endian (20_memory.md R55,
40_execute_cycle.md R102). -/
def combine (hi lo : Byte) : Word := hi ++ lo

/-- Format A (R72): the top nibble, then nnn. -/
def formatA (t : BitVec 4) (nnn : Addr12) : Word := t ++ nnn

/-- Formats XK and XF (R72): the top nibble, x, then a byte (an immediate or a selector). -/
def formatXK (t : BitVec 4) (x : Reg) (kk : Byte) : Word := t ++ (x ++ kk)

/-- Formats XY and XYN (R72): the top nibble, x, y, then a nibble (a selector or a count). -/
def formatXY (t : BitVec 4) (x y : Reg) (f : BitVec 4) : Word := t ++ (x ++ (y ++ f))

/-- The word of an instruction: the pattern of R77 with the fields of R71 filled in (R81). -/
def encode (i : Instr) : Word :=
  match i with
  | .cls => 0x00E0#16
  | .ret => 0x00EE#16
  | .jp nnn => formatA 0x1 nnn
  | .call nnn => formatA 0x2 nnn
  | .seImm x kk => formatXK 0x3 x kk
  | .sneImm x kk => formatXK 0x4 x kk
  | .ldImm x kk => formatXK 0x6 x kk
  | .addImm x kk => formatXK 0x7 x kk
  | .ldReg x y => formatXY 0x8 x y 0x0
  | .orReg x y => formatXY 0x8 x y 0x1
  | .andReg x y => formatXY 0x8 x y 0x2
  | .xorReg x y => formatXY 0x8 x y 0x3
  | .addReg x y => formatXY 0x8 x y 0x4
  | .sub x y => formatXY 0x8 x y 0x5
  | .shr x y => formatXY 0x8 x y 0x6
  | .subn x y => formatXY 0x8 x y 0x7
  | .shl x y => formatXY 0x8 x y 0xE
  | .sneReg x y => formatXY 0x9 x y 0x0
  | .ldI nnn => formatA 0xA nnn
  | .rnd x kk => formatXK 0xC x kk
  | .drw x y n => formatXY 0xD x y n
  | .skp x => formatXK 0xE x 0x9E
  | .sknp x => formatXK 0xE x 0xA1
  | .ldVxDt x => formatXK 0xF x 0x07
  | .ldVxK x => formatXK 0xF x 0x0A
  | .ldDtVx x => formatXK 0xF x 0x15
  | .ldStVx x => formatXK 0xF x 0x18
  | .addIVx x => formatXK 0xF x 0x1E
  | .ldFVx x => formatXK 0xF x 0x29
  | .ldBVx x => formatXK 0xF x 0x33
  | .ldMemVx x => formatXK 0xF x 0x55
  | .ldVxMem x => formatXK 0xF x 0x65

/-- The high and the low byte of an opcode, in the order in which the hardware stores them (R57). -/
def opcodeBytes (op : Word) : Byte × Byte := (op.extractLsb' 8 8, op.extractLsb' 0 8)

/-- The instruction's word from its number in the opcode table: bits above `nbits` are 0. -/
def tableWord (nbits w : Nat) : Word := BitVec.ofNat 16 (w % 2 ^ nbits)

/-- What the decoder reads from the opcode table's word `w`: its two bytes laid out big-endian and decoded. The
optional ExA1 row is read with its option on (log entry 13). -/
def decodeTableWord (nbits w : Nat) : Option Instr :=
  let b := opcodeBytes (tableWord nbits w)
  match decode true (combine b.1 b.2) with
  | .ok i => some i
  | .error _ => none

end Sys2Proof
end

