-- ==== Sys2Proof/Machine/Params.lean ====
section
/-! DEFINITION. What the parameters of 00_scope.md R8 mean: their legal values, the clock periods they give
(60_exceptions.md R240, R241), and the values they have at reset. -/

namespace Sys2Proof

/-- R8's legal values: rate and tone positive, 2·tone ≤ rate, the amplitude representable in the signed type,
rate·duration ≥ 1. -/
abbrev WaveParams.legal (w : WaveParams) : Prop :=
  0 < w.sampleRate ∧ 0 < w.toneNum ∧ 0 < w.toneDen ∧ 2 * w.toneNum ≤ w.sampleRate * w.toneDen ∧
  0 < w.sampleBits ∧ w.amplitude < 2 ^ (w.sampleBits - 1) ∧
  0 < w.durDen ∧ w.durDen ≤ w.sampleRate * w.durNum

/-- The legal values of R8 (and a positive grain). -/
abbrev Params.legal (p : Params) : Prop :=
  0 < p.cpuHz ∧ 16 ≤ p.stackCapacity ∧ p.fontBase + 80 ≤ 0x200 ∧ p.fontData.length = 80 ∧
  p.waveform.legal ∧ 0 < p.timeGrain

/-- Model time units in one second: R240's U = lcm(60, P_CPU_HZ), times the grain. -/
def Params.unitsPerSecond (p : Params) : Nat := Nat.lcm 60 p.cpuHz * p.timeGrain

/-- T_timer = 1/60 s (60_exceptions.md R241), in model units. -/
def Params.timerPeriod (p : Params) : Nat := p.unitsPerSecond / 60

/-- T_cpu = 1/P_CPU_HZ s (60_exceptions.md R241), in model units. -/
def Params.cpuPeriod (p : Params) : Nat := p.unitsPerSecond / p.cpuHz

/-- The default `P_FONT_DATA` of 20_memory.md R62 (PRESUMED by the spec itself; log entry 2). -/
def Params.defaultFont : List Byte :=
  [0xF0, 0x90, 0x90, 0x90, 0xF0,  0x20, 0x60, 0x20, 0x20, 0x70,
   0xF0, 0x10, 0xF0, 0x80, 0xF0,  0xF0, 0x10, 0xF0, 0x10, 0xF0,
   0x90, 0x90, 0xF0, 0x10, 0x10,  0xF0, 0x80, 0xF0, 0x10, 0xF0] ++
  [0xF0, 0x80, 0xF0, 0x90, 0xF0,  0xF0, 0x10, 0x20, 0x40, 0x40,
   0xF0, 0x90, 0xF0, 0x90, 0xF0,  0xF0, 0x90, 0xF0, 0x10, 0xF0,
   0xF0, 0x90, 0xF0, 0x90, 0x90,  0xE0, 0x90, 0xE0, 0x90, 0xE0] ++
  [0xF0, 0x80, 0x80, 0x80, 0xF0,  0xE0, 0x90, 0x90, 0x90, 0xE0,
   0xF0, 0x80, 0xF0, 0x80, 0xF0,  0xF0, 0x80, 0xF0, 0x80, 0x80]

/-- The waveform parameters at reset: any legal ones. Where the free choice is not legal the smallest legal
tuple stands in, so this ranges over exactly the legal values and nothing more can be proved of it. -/
def Config.waveform : WaveParams :=
  if Config.waveChoice.legal then Config.waveChoice
  else { sampleRate := 2, toneNum := 1, toneDen := 1, amplitude := 0, durNum := 1, durDen := 1, sampleBits := 1 }

/-- The parameters at reset: the defaults of R8. -/
def Params.default : Params :=
  { cpuHz := 700, stackCapacity := 16, fontBase := 0x050, fontData := Params.defaultFont,
    flagOrder := .sequential, enableExA1 := false, waveform := Config.waveform, timeGrain := 1 }

end Sys2Proof
end

