-- ==== Sys2Proof/Machine/Waveform.lean ====
section
/-! DEFINITION. The square-wave synthesis of 60_exceptions.md R253, done once at initialisation. All its
quantities are exact: a rational is compared by cross-multiplying naturals. -/

namespace Sys2Proof.Machine

/-- N = ⌊P_SAMPLE_RATE · P_DURATION⌋ (R253). -/
def sampleCount (w : WaveParams) : Nat := w.sampleRate * w.durNum / w.durDen

/-- frac(k · P_TONE_HZ / P_SAMPLE_RATE) < 1/2: sample k lies in the high half-period (R253). -/
def inHighHalf (w : WaveParams) (k : Nat) : Bool :=
  2 * ((k * w.toneNum) % (w.toneDen * w.sampleRate)) < w.toneDen * w.sampleRate

/-- Sample k: +P_AMPLITUDE in the high half-period, −P_AMPLITUDE in the low one (R253). -/
def squareSample (w : WaveParams) (k : Nat) : Int :=
  if inHighHalf w k then (w.amplitude : Int) else -(w.amplitude : Int)

/-- The waveform buffer wave[0..N−1] (R253). -/
def synthWave (w : WaveParams) : List Int := (List.range (sampleCount w)).map (squareSample w)

end Sys2Proof.Machine
end

