-- ==== Sys2Proof/Machine/State.lean ====
section
/-! DEFINITION. The machine's state (10_state.md), the reasons a tick can stop, and the state after
initialisation (R44). -/

namespace Sys2Proof.Machine

/-- The fatal errors of 60_exceptions.md R220. An instruction raises one with the info R220 records; the CPU tick
then writes it into `status` (R229). Safe: every run that reaches one ends there, as the spec's does. -/
inductive Fault where
  /-- Raised by the fetch, Dxyn, Fx33, Fx55 and Fx65 at the first address ≥ 4096 (R221). Safe. -/
  | outOfBoundsMemory (addr : Nat)
  /-- Raised by nothing (R222); kept for completeness of the status type (44_display.md R193). Safe. -/
  | outOfBoundsFrameBuffer (x y : Nat)
  /-- Raised by 2nnn with the stack at capacity; records the advanced pc (R223). Safe. -/
  | stackOverflow (pc : Word)
  /-- Raised by 00EE with the stack empty; records the advanced pc (R224). Safe. -/
  | stackUnderflow (pc : Word)
  deriving DecidableEq, Repr

/-- Why a step or an instruction gives no meaning. -/
inductive Refusal where
  /-- Raised by `exec` alone, for an instruction without a meaning yet (no arm does so now). Safe: nothing is
  proved past it. -/
  | notModelled (mnemonic : String)
  /-- Raised by Fx29 with V[x] > 0xF (60_exceptions.md R228, 43_index_memory.md R172). Safe, the spec's own. -/
  | fontDigitOutOfRange (v : Byte)
  /-- Raised by Ex9E and ExA1 with V[x] > 0xF (R228, 45_timers_keys.md R200, R201). Safe, the spec's own. -/
  | keyIndexOutOfRange (v : Byte)
  deriving DecidableEq, Repr

/-- The reasons that `status` can record under `Refused` (60_exceptions.md R228). -/
inductive RefusedReason where
  | fontDigitOutOfRange (v : Byte)
  | keyIndexOutOfRange (v : Byte)
  deriving DecidableEq, Repr

/-- `status` (10_state.md R40). -/
inductive Status where
  | running
  | finished (opcode addr : Word)
  | fatal (f : Fault)
  | refused (r : RefusedReason)
  | quit
  deriving DecidableEq, Repr

/-- Memory as a list of cells, strictly rising addresses, none equal to what an unlisted address reads as
(`Memory.wf`). -/
abbrev Memory := List Host.Cell

/-- Which values `playing` held during a scheduler iteration (60_exceptions.md R256; log entry 8). -/
structure Held where
  low : Bool
  high : Bool
  deriving DecidableEq, Repr

/-- The state of the whole block (00_scope.md R2, 10_state.md). The fields from `params` down to `free` are the
model's own. -/
structure State where
  /-- V[0]..V[15] (R20). -/
  v : Vector Byte 16
  /-- I (R24). -/
  i : Word
  /-- pc (R25). -/
  pc : Word
  /-- The call stack, the entry pushed last at the head; SP is its length (R28; log entry 10). -/
  stack : List Word
  /-- DT (R31). -/
  dt : Byte
  /-- ST (R32). -/
  st : Byte
  /-- The sound-active flag (R33). -/
  playing : Bool
  /-- The frame buffer (R34). -/
  fb : Frame
  /-- The key latch (R36). -/
  keys : Vector Bool 16
  /-- The 4096 bytes of memory (20_memory.md R50). -/
  mem : Memory
  /-- The waveform buffer (R37). -/
  wave : List Int
  /-- The waveform cursor (R38). -/
  cursor : Nat
  /-- acc_timer (R39), in the model's time units. -/
  accTimer : Nat
  /-- acc_cpu (R39), in the model's time units. -/
  accCpu : Nat
  /-- status (R40). -/
  status : Status
  /-- The parameters of 00_scope.md R8; no step changes them (log entry 1). -/
  params : Params
  /-- The host moves already decided, oldest first (log entry 6). -/
  pending : List HostMove
  /-- The values of `playing` in the scheduler iteration before the current one (log entry 8). -/
  heldPrev : Held
  /-- The values of `playing` since the current scheduler iteration began (log entry 8). -/
  heldCur : Held
  /-- The sample the last pull answered (log entry 16). -/
  lastSample : Int
  /-- How many free values have been taken (log entry 7). -/
  free : Nat
  deriving DecidableEq, Repr

/-- The value of every piece of state once initialisation completes (10_state.md R44), for given parameters and
with no ROM placed: memory lists nothing, so it reads as the font and 0 (log entries 2, 12). -/
def State.initial (p : Params) : State :=
  { v := Vector.replicate 16 0#8, i := 0#16, pc := 0x200#16, stack := [], dt := 0#8, st := 0#8,
    playing := false, fb := Vector.replicate 32 (Vector.replicate 64 false),
    keys := Vector.replicate 16 false, mem := [], wave := synthWave p.waveform, cursor := 0,
    accTimer := 0, accCpu := 0, status := .running, params := p, pending := [],
    heldPrev := { low := true, high := false }, heldCur := { low := true, high := false },
    lastSample := 0, free := 0 }

/-- The machine right after initialisation with the default parameters (R44, 00_scope.md R8). -/
def State.reset : State := State.initial Params.default

end Sys2Proof.Machine
end

