-- ==== Sys2Proof/Machine/Ops.lean ====
section
/-! DEFINITION. The named operations over memory, registers, the stack, the frame buffer and the key latch, and
the three ways a tick can end the run (00_scope.md R13). Meanings are written over these alone. -/

namespace Sys2Proof.Machine

/-! ## Memory (20_memory.md) -/

/-- Exactly 4096 addressable bytes (R50). -/
def memSize : Nat := 4096

/-- What an unlisted address reads as: the contents after initialisation, the font at P_FONT_BASE and 0
elsewhere (10_state.md R44, 20_memory.md R61, R62). -/
def unlisted (p : Params) (a : Nat) : Byte :=
  if p.fontBase ≤ a ∧ a < p.fontBase + 80 then p.fontData.getD (a - p.fontBase) 0#8 else 0#8

/-- The listed byte at an address, if one is listed. -/
def Memory.find (a : Nat) : Memory → Option Byte
  | [] => none
  | (b, w) :: m => if b = a then some w else Memory.find a m

/-- The byte an address holds. -/
def Memory.get (p : Params) (m : Memory) (a : Nat) : Byte := (Memory.find a m).getD (unlisted p a)

/-- List `v` at `a`, keeping the addresses rising. -/
def Memory.insert (a : Nat) (v : Byte) : Memory → Memory
  | [] => [(a, v)]
  | (b, w) :: m =>
    if a < b then (a, v) :: (b, w) :: m
    else if a = b then (a, v) :: m
    else (b, w) :: Memory.insert a v m

/-- Unlist `a`. -/
def Memory.erase (a : Nat) : Memory → Memory
  | [] => []
  | (b, w) :: m => if b = a then Memory.erase a m else (b, w) :: Memory.erase a m

/-- Store `v` at `a` in canonical form: a byte equal to what the unlisted address reads as is unlisted. -/
def Memory.put (p : Params) (m : Memory) (a : Nat) (v : Byte) : Memory :=
  if v = unlisted p a then Memory.erase a m else Memory.insert a v m

/-- The canonical form: every address is at least `lo`, they rise strictly, lie inside memory, and no entry is what
its unlisted address reads as. -/
def Memory.wfFrom (p : Params) (lo : Nat) : Memory → Bool
  | [] => true
  | (a, v) :: m => decide (lo ≤ a) && decide (a < memSize) && decide (v ≠ unlisted p a) && Memory.wfFrom p (a + 1) m

/-- The canonical form holds. -/
def Memory.wf (p : Params) (m : Memory) : Bool := Memory.wfFrom p 0 m

/-- The memory that holds some cells, later cells over earlier ones; cells outside memory are dropped. -/
def Memory.ofCells (p : Params) : List Host.Cell → Memory
  | [] => []
  | (a, v) :: cs =>
    if a < memSize then Memory.put p (Memory.ofCells p cs) a v else Memory.ofCells p cs

/-- The byte of memory at an address, as a view of the state. -/
def State.peek (s : State) (a : Nat) : Byte := Memory.get s.params s.mem a

/-- A byte placed in memory. -/
def State.poke (s : State) (a : Nat) (v : Byte) : State := { s with mem := Memory.put s.params s.mem a v }

/-- MemRead(addr, 1) (00_scope.md R12, 20_memory.md R51). -/
def memRead (s : State) (a : Nat) : Except Fault Byte :=
  if memSize ≤ a then .error (.outOfBoundsMemory a) else .ok (s.peek a)

/-- MemWrite(addr, 1, v) (00_scope.md R12, 20_memory.md R51). -/
def memWrite (s : State) (a : Nat) (v : Byte) : Except Fault State :=
  if memSize ≤ a then .error (.outOfBoundsMemory a) else .ok (s.poke a v)

/-- MemWrite of a row of bytes in ascending address order; the first bad address is the one reported
(20_memory.md R59). -/
def storeBytes (s : State) (a : Nat) : List Byte → Except Fault State
  | [] => .ok s
  | b :: bs =>
    match memWrite s a b with
    | .error f => .error f
    | .ok t => storeBytes t (a + 1) bs

/-- MemRead of `n` bytes in ascending address order (20_memory.md R59). -/
def loadBytes (s : State) (a : Nat) : Nat → Except Fault (List Byte)
  | 0 => .ok []
  | n + 1 =>
    match memRead s a with
    | .error f => .error f
    | .ok b =>
      match loadBytes s (a + 1) n with
      | .error f => .error f
      | .ok bs => .ok (b :: bs)

/-! ## Registers (10_state.md R20 to R25) -/

/-- V[x]. -/
def State.reg (s : State) (x : Reg) : Byte := s.v[x.toNat]'x.isLt

/-- V[x] <- b. -/
def State.setReg (s : State) (x : Reg) (b : Byte) : State := { s with v := s.v.set x.toNat b x.isLt }

/-- V[k] <- b for successive k from `k`. -/
def fillRegs (v : Vector Byte 16) (k : Nat) : List Byte → Vector Byte 16
  | [] => v
  | b :: bs => fillRegs (v.setIfInBounds k b) (k + 1) bs

/-- I <- w. -/
def State.setI (s : State) (w : Word) : State := { s with i := w }

/-- pc <- w. -/
def State.setPc (s : State) (w : Word) : State := { s with pc := w }

/-- The skip of 40_execute_cycle.md R108: pc <- pc + 2 on the advanced pc, where the condition holds. -/
def State.skipIf (s : State) (c : Bool) : State := if c then s.setPc (s.pc + 2#16) else s

/-! ## The call stack (10_state.md R28 to R30) -/

/-- SP: how many entries the stack holds (R28). -/
def State.sp (s : State) : Nat := s.stack.length

/-- push(a): StackOverflow(pc) at capacity (R29). -/
def push (s : State) (a : Word) : Except Fault State :=
  if s.params.stackCapacity ≤ s.stack.length then .error (.stackOverflow s.pc)
  else .ok { s with stack := a :: s.stack }

/-- pop(): StackUnderflow(pc) on an empty stack (R29). -/
def pop (s : State) : Except Fault (Word × State) :=
  match s.stack with
  | [] => .error (.stackUnderflow s.pc)
  | a :: rest => .ok (a, { s with stack := rest })

/-! ## The frame buffer (10_state.md R34, R35) -/

/-- get(x, y), on (x mod 64, y mod 32). -/
def pixelAt (f : Frame) (x y : Nat) : Bool :=
  (f[y % 32]'(Nat.mod_lt y (by decide)))[x % 64]'(Nat.mod_lt x (by decide))

/-- set(x, y, b), on (x mod 64, y mod 32). -/
def setPixel (f : Frame) (x y : Nat) (b : Bool) : Frame :=
  f.set (y % 32) ((f[y % 32]'(Nat.mod_lt y (by decide))).set (x % 64) b (Nat.mod_lt x (by decide)))
    (Nat.mod_lt y (by decide))

/-- clear(): the entire grid zeroed. -/
def blankFrame : Frame := Vector.replicate 32 (Vector.replicate 64 false)

/-! ## The key latch (10_state.md R36, 60_exceptions.md R251) -/

/-- is_pressed(k) for 0 ≤ k ≤ 15. -/
def State.isPressed (s : State) (k : Fin 16) : Bool := s.keys[k.val]'k.isLt

/-- The least pressed key, searching from key `k` upwards among the last `n` keys (45_timers_keys.md R203). -/
def leastPressedFrom (keys : Vector Bool 16) (k : Nat) : Nat → Option Nat
  | 0 => none
  | n + 1 => if keys.getD k false then some k else leastPressedFrom keys (k + 1) n

/-- The least k in 0..15 with key[k], if there is one (45_timers_keys.md R203). -/
def State.leastPressed (s : State) : Option Nat := leastPressedFrom s.keys 0 16

/-! ## How a tick ends the run (00_scope.md R13) -/

/-- raise E(info): status <- Fatal(E, info); everything else is unspecified afterwards (40_execute_cycle.md R107,
60_exceptions.md R229, R231), so every other piece of the machine's state is a free value (log entry 3). -/
def State.raise (s : State) (f : Fault) : State :=
  let w := Config.wreckage s.free
  { s with v := w.v, i := w.i, pc := w.pc, stack := w.stack, dt := w.dt, st := w.st, playing := w.playing,
           fb := w.fb, keys := w.keys, mem := Memory.ofCells s.params w.cells, wave := w.wave,
           cursor := w.cursor, accTimer := w.accTimer, accCpu := w.accCpu,
           status := .fatal f, free := s.free + 1 }

/-- finish UnknownOpcode(info): status <- Finished, nothing else changes (40_execute_cycle.md R105,
60_exceptions.md R230). -/
def State.finish (s : State) (opcode addr : Word) : State := { s with status := .finished opcode addr }

/-- refuse R: status <- Refused(R), nothing else changes (60_exceptions.md R228). -/
def State.refuse (s : State) (r : RefusedReason) : State := { s with status := .refused r }

/-- An instruction whose effect either raises a fatal error or gives a next state. -/
def ofExcept (r : Except Fault State) : Host.Outcome State Fault Refusal :=
  match r with
  | .error f => .fault f
  | .ok t => .next t

end Sys2Proof.Machine
end

