-- ==== Sys2Proof/Machine/Flags.lean ====
section
/-! DEFINITION. The values that VF takes (10_state.md R23) and the order of the flag write and the result write
(42_alu.md R139). -/

namespace Sys2Proof.Machine

/-- A flag is written as 0 or 1, never ORed into the old value (10_state.md R23). -/
def flagByte (c : Bool) : Byte := if c then 1#8 else 0#8

/-- Carry of 8xy4: 1 exactly when the sum exceeds 255 (42_alu.md R146). -/
def carryFlag (a b : Byte) : Byte := flagByte (decide (a.toNat + b.toNat > 255))

/-- The strict comparison of 8xy5 and 8xy7: 1 exactly when a > b (42_alu.md R147, R149; 90_conflicts.md C11). -/
def greaterFlag (a b : Byte) : Byte := flagByte (decide (a.toNat > b.toNat))

/-- The bit 8xy6 shifts out: bit 0 (42_alu.md R148). -/
def lowBitFlag (a : Byte) : Byte := flagByte (a.getLsbD 0)

/-- The bit 8xyE shifts out: bit 7 (42_alu.md R150). -/
def highBitFlag (a : Byte) : Byte := flagByte (a.getLsbD 7)

/-- A result and a flag that both come from the operands as they stood, written in the order of P_FLAG_ORDER: the
flag first under Sequential (so that the result survives in VF), last under FlagLast (42_alu.md R139, R146). -/
def writeBoth (s : State) (x : Reg) (result flag : Byte) : State :=
  match s.params.flagOrder with
  | .sequential => (s.setReg VF flag).setReg x result
  | .flagLast => (s.setReg x result).setReg VF flag

/-- The two statements "VF = ...; Vx = ..." of 8xy5, 8xy6, 8xy7 and 8xyE: under Sequential the second reads the
registers after the first, under FlagLast every operand is read before any write (42_alu.md R139). -/
def flagThenResult (s : State) (x : Reg) (flag result : State → Byte) : State :=
  match s.params.flagOrder with
  | .sequential =>
    let s₁ := s.setReg VF (flag s)
    s₁.setReg x (result s₁)
  | .flagLast => (s.setReg x (result s)).setReg VF (flag s)

end Sys2Proof.Machine
end

