-- ==== Sys2Proof/Machine/Operands.lean ====
section
/-! DEFINITION. The operand forms of the ISA: immediates (30_encoding.md R73), register-indirect addresses through I
(20_memory.md R63, 43_index_memory.md) and register values used as indices. -/

namespace Sys2Proof.Machine

/-- zext_16(nnn): an absolute address as a 16-bit value (30_encoding.md R73). -/
def absolute (nnn : Addr12) : Word := nnn.setWidth 16

/-- The exact address I + k: a natural number, never wrapped (20_memory.md R63). -/
def State.indirect (s : State) (k : Nat) : Nat := s.i.toNat + k

/-- I after the post-increment past the range I..I + x: trunc_16(I + x + 1) (43_index_memory.md R174, R175). -/
def State.pastRange (s : State) (x : Reg) : Word := s.i + BitVec.ofNat 16 (x.toNat + 1)

/-- V[0]..V[x], x + 1 bytes (30_encoding.md R74). -/
def State.regsUpTo (s : State) (x : Reg) : List Byte := s.v.toList.take (x.toNat + 1)

/-- The hundreds, tens and ones of a byte (43_index_memory.md R173). -/
def bcdDigits (b : Byte) : List Byte :=
  [BitVec.ofNat 8 (b.toNat / 100), BitVec.ofNat 8 (b.toNat / 10 % 10), BitVec.ofNat 8 (b.toNat % 10)]

/-- V[x] as a key number, where it names a key (45_timers_keys.md R200). -/
def keyIndex (b : Byte) : Option (Fin 16) := if h : b.toNat < 16 then some ⟨b.toNat, h⟩ else none

/-- The address of the glyph of a hexadecimal digit, where V[x] is one: P_FONT_BASE + 5·V[x]
(43_index_memory.md R172). -/
def glyphAddress (p : Params) (b : Byte) : Option Word :=
  if b.toNat < 16 then some (BitVec.ofNat 16 (p.fontBase + 5 * b.toNat)) else none

end Sys2Proof.Machine
end

