-- ==== Sys2Proof/Machine/Alu.lean ====
section
/-! DEFINITION. Register loads, arithmetic, logic, shifts and random (42_alu.md). Arithmetic is unsigned and wraps
mod 2^8; nothing here raises an exception (R138). -/

namespace Sys2Proof.Machine

/-- 6xkk LD: V[x] <- kk (R140). -/
def execLdImm (x : Reg) (kk : Byte) (s : State) : Host.Outcome State Fault Refusal := .next (s.setReg x kk)

/-- 7xkk ADD: V[x] <- trunc_8(V[x] + kk), no flag (R141). -/
def execAddImm (x : Reg) (kk : Byte) (s : State) : Host.Outcome State Fault Refusal :=
  .next (s.setReg x (s.reg x + kk))

/-- 8xy0 LD: V[x] <- V[y] (R142). -/
def execLdReg (x y : Reg) (s : State) : Host.Outcome State Fault Refusal := .next (s.setReg x (s.reg y))

/-- 8xy1 OR (R143). -/
def execOrReg (x y : Reg) (s : State) : Host.Outcome State Fault Refusal :=
  .next (s.setReg x (s.reg x ||| s.reg y))

/-- 8xy2 AND (R144). -/
def execAndReg (x y : Reg) (s : State) : Host.Outcome State Fault Refusal :=
  .next (s.setReg x (s.reg x &&& s.reg y))

/-- 8xy3 XOR (R145). -/
def execXorReg (x y : Reg) (s : State) : Host.Outcome State Fault Refusal :=
  .next (s.setReg x (s.reg x ^^^ s.reg y))

/-- 8xy4 ADD: sum and carry, both from the old values under either flag order (R146). -/
def execAddReg (x y : Reg) (s : State) : Host.Outcome State Fault Refusal :=
  .next (writeBoth s x (s.reg x + s.reg y) (carryFlag (s.reg x) (s.reg y)))

/-- 8xy5 SUB: VF = V[x] > V[y]; V[x] <- V[x] − V[y] (R147). -/
def execSub (x y : Reg) (s : State) : Host.Outcome State Fault Refusal :=
  .next (flagThenResult s x (fun r => greaterFlag (r.reg x) (r.reg y)) (fun r => r.reg x - r.reg y))

/-- 8xy6 SHR: VF = V[x] & 1; V[x] <- V[x] >> 1; y is not read (R148). -/
def execShr (x _y : Reg) (s : State) : Host.Outcome State Fault Refusal :=
  .next (flagThenResult s x (fun r => lowBitFlag (r.reg x)) (fun r => r.reg x >>> (1 : Nat)))

/-- 8xy7 SUBN: VF = V[y] > V[x]; V[x] <- V[y] − V[x] (R149). -/
def execSubn (x y : Reg) (s : State) : Host.Outcome State Fault Refusal :=
  .next (flagThenResult s x (fun r => greaterFlag (r.reg y) (r.reg x)) (fun r => r.reg y - r.reg x))

/-- 8xyE SHL: VF = (V[x] >> 7) & 1; V[x] <- trunc_8(V[x] << 1); y is not read (R150). -/
def execShl (x _y : Reg) (s : State) : Host.Outcome State Fault Refusal :=
  .next (flagThenResult s x (fun r => highBitFlag (r.reg x)) (fun r => r.reg x <<< (1 : Nat)))

/-- Cxkk RND: r = draw_rand(), one fresh unconstrained draw; V[x] <- r & kk (R151, log entry 7). -/
def execRnd (x : Reg) (kk : Byte) (s : State) : Host.Outcome State Fault Refusal :=
  .next { s.setReg x (Config.randomByte s.free &&& kk) with free := s.free + 1 }

end Sys2Proof.Machine
end

