-- ==== Sys2Proof/Machine/Display.lean ====
section
/-! DEFINITION. Clear and sprite draw (44_display.md). -/

namespace Sys2Proof.Machine

/-- XOR one pixel; the collision flag goes to 1 when the pixel was set (R191). -/
def togglePixel (px py : Nat) (acc : Frame × Bool) : Frame × Bool :=
  (setPixel acc.1 px py (!pixelAt acc.1 px py), acc.2 || pixelAt acc.1 px py)

/-- The bits of one sprite byte from column `c` on, `k` of them, most significant bit first: each set bit XORs the
wrapped pixel ((cx + c) mod 64, y mod 32) (R191). -/
def drawBits (cx y : Nat) (b : Byte) (c : Nat) : Nat → Frame × Bool → Frame × Bool
  | 0, acc => acc
  | k + 1, acc =>
    drawBits cx y b (c + 1) k
      (if b.getLsbD (7 - c) then togglePixel ((cx + c) % 64) (y % 32) acc else acc)

/-- The rows of a sprite, top to bottom, the first at row `y` (R191). -/
def drawRows (cx y : Nat) : List Byte → Frame × Bool → Frame × Bool
  | [], acc => acc
  | b :: bs, acc => drawRows cx (y + 1) bs (drawBits cx y b 0 8 acc)

/-- 00E0 CLS: every pixel 0 (R190). -/
def execCls (s : State) : Host.Outcome State Fault Refusal := .next { s with fb := blankFrame }

/-- Dxyn DRW: the coordinates are V[x] and V[y] before VF is reset; VF is 0, and 1 after a collision (R191).
The n bytes are read before the first pixel is drawn (log entry 18). -/
def execDrw (x y : Reg) (n : BitVec 4) (s : State) : Host.Outcome State Fault Refusal :=
  match loadBytes s (s.indirect 0) n.toNat with
  | .error f => .fault f
  | .ok bs =>
    let r := drawRows (s.reg x).toNat (s.reg y).toNat bs (s.fb, false)
    .next ({ s with fb := r.1 }.setReg VF (flagByte r.2))

end Sys2Proof.Machine
end

