-- ==== Sys2Proof/Machine/Flow.lean ====
section
/-! DEFINITION. Jumps, calls, returns and skips (41_flow.md). `s.pc` is the pc already advanced by the fetch
(40_execute_cycle.md R103, R106). -/

namespace Sys2Proof.Machine

/-- 00EE RET: pc <- pop(); an empty stack is a fatal error and pc is not written (R120). -/
def execRet (s : State) : Host.Outcome State Fault Refusal :=
  match pop s with
  | .error f => .fault f
  | .ok (a, t) => .next (t.setPc a)

/-- 1nnn JP: pc <- zext_16(nnn) (R121). -/
def execJp (nnn : Addr12) (s : State) : Host.Outcome State Fault Refusal := .next (s.setPc (absolute nnn))

/-- 2nnn CALL: push(pc); pc <- zext_16(nnn) (R122). -/
def execCall (nnn : Addr12) (s : State) : Host.Outcome State Fault Refusal :=
  match push s s.pc with
  | .error f => .fault f
  | .ok t => .next (t.setPc (absolute nnn))

/-- 3xkk SE: skip if V[x] = kk (R123). -/
def execSeImm (x : Reg) (kk : Byte) (s : State) : Host.Outcome State Fault Refusal :=
  .next (s.skipIf (decide (s.reg x = kk)))

/-- 4xkk SNE: skip if V[x] ≠ kk (R124). -/
def execSneImm (x : Reg) (kk : Byte) (s : State) : Host.Outcome State Fault Refusal :=
  .next (s.skipIf (decide (s.reg x ≠ kk)))

/-- 9xy0 SNE: skip if V[x] ≠ V[y] (R125). -/
def execSneReg (x y : Reg) (s : State) : Host.Outcome State Fault Refusal :=
  .next (s.skipIf (decide (s.reg x ≠ s.reg y)))

end Sys2Proof.Machine
end

