-- ==== Sys2Proof/Machine/IndexMem.lean ====
section
/-! DEFINITION. Index register and memory-block instructions (43_index_memory.md). -/

namespace Sys2Proof.Machine

/-- Annn LD I: I <- zext_16(nnn) (R170). -/
def execLdI (nnn : Addr12) (s : State) : Host.Outcome State Fault Refusal := .next (s.setI (absolute nnn))

/-- Fx1E ADD I: I <- trunc_16(I + V[x]), no flag (R171). -/
def execAddIVx (x : Reg) (s : State) : Host.Outcome State Fault Refusal :=
  .next (s.setI (s.i + (s.reg x).setWidth 16))

/-- Fx29 LD F: I <- P_FONT_BASE + 5·V[x] for a hexadecimal digit, else refused (R172). -/
def execLdFVx (x : Reg) (s : State) : Host.Outcome State Fault Refusal :=
  match glyphAddress s.params (s.reg x) with
  | some a => .next (s.setI a)
  | none => .refused (.fontDigitOutOfRange (s.reg x))

/-- Fx33 LD B: the three decimal digits of V[x] to I, I + 1, I + 2; I is not changed (R173). -/
def execLdBVx (x : Reg) (s : State) : Host.Outcome State Fault Refusal :=
  ofExcept (storeBytes s (s.indirect 0) (bcdDigits (s.reg x)))

/-- Fx55 LD [I]: V[0]..V[x] to memory from I; then I past the range (R174). -/
def execLdMemVx (x : Reg) (s : State) : Host.Outcome State Fault Refusal :=
  match storeBytes s (s.indirect 0) (s.regsUpTo x) with
  | .error f => .fault f
  | .ok t => .next (t.setI (s.pastRange x))

/-- Fx65 LD Vx: memory from I to V[0]..V[x]; then I past the range (R175). -/
def execLdVxMem (x : Reg) (s : State) : Host.Outcome State Fault Refusal :=
  match loadBytes s (s.indirect 0) (x.toNat + 1) with
  | .error f => .fault f
  | .ok bs => .next ({ s with v := fillRegs s.v 0 bs }.setI (s.pastRange x))

end Sys2Proof.Machine
end

