-- ==== Sys2Proof/Machine/KeyTimer.lean ====
section
/-! DEFINITION. Key and timer instructions (45_timers_keys.md). The latch is read by level (60_exceptions.md R251). -/

namespace Sys2Proof.Machine

/-- Ex9E SKP: skip if key V[x] is pressed; refused where V[x] names no key (R200). -/
def execSkp (x : Reg) (s : State) : Host.Outcome State Fault Refusal :=
  match keyIndex (s.reg x) with
  | some k => .next (s.skipIf (s.isPressed k))
  | none => .refused (.keyIndexOutOfRange (s.reg x))

/-- ExA1 SKNP: skip if key V[x] is not pressed; refused where V[x] names no key (R201). -/
def execSknp (x : Reg) (s : State) : Host.Outcome State Fault Refusal :=
  match keyIndex (s.reg x) with
  | some k => .next (s.skipIf (!s.isPressed k))
  | none => .refused (.keyIndexOutOfRange (s.reg x))

/-- Fx07 LD Vx, DT: V[x] <- DT (R202). -/
def execLdVxDt (x : Reg) (s : State) : Host.Outcome State Fault Refusal := .next (s.setReg x s.dt)

/-- Fx0A LD Vx, K: V[x] <- the least pressed key, else pc <- pc − 2 (R203). -/
def execLdVxK (x : Reg) (s : State) : Host.Outcome State Fault Refusal :=
  match s.leastPressed with
  | some k => .next (s.setReg x (BitVec.ofNat 8 k))
  | none => .next (s.setPc (s.pc - 2#16))

/-- Fx15 LD DT, Vx: DT <- V[x] (R204). -/
def execLdDtVx (x : Reg) (s : State) : Host.Outcome State Fault Refusal := .next { s with dt := s.reg x }

/-- Fx18 LD ST, Vx: ST <- V[x]; `playing` is not written (R205). -/
def execLdStVx (x : Reg) (s : State) : Host.Outcome State Fault Refusal := .next { s with st := s.reg x }

end Sys2Proof.Machine
end

