-- ==== Sys2Proof/Machine/Scheduler.lean ====
section
/-! DEFINITION. The timer tick, the host ports and the choice of the agent that moves next (60_exceptions.md
R240 to R260, 20_memory.md R68). -/

namespace Sys2Proof.Machine

/-! ## The timer tick -/

/-- A value of `playing` added to those held in the current iteration (60_exceptions.md R256). -/
def Held.add (h : Held) (b : Bool) : Held := { low := h.low || !b, high := h.high || b }

/-- Exactly one value held. -/
def Held.only (b : Bool) : Held := { low := !b, high := b }

/-- playing <- b, recorded among the values held in the current iteration. -/
def State.setPlaying (s : State) (b : Bool) : State := { s with playing := b, heldCur := s.heldCur.add b }

/-- DT <- DT − 1 if DT > 0: never below zero (10_state.md R31, 60_exceptions.md R243). -/
def countDown (t : Byte) : Byte := if t = 0#8 then 0#8 else t - 1#8

/-- timer_tick() (60_exceptions.md R243): a tick that finds ST > 0 raises `playing` and counts ST down; one that
finds ST = 0 lowers `playing`. -/
def timerTick (s : State) : State :=
  { s.setPlaying (decide (s.st ≠ 0#8)) with dt := countDown s.dt, st := countDown s.st }

/-! ## The host ports -/

/-- The start of iteration(Δ): the elapsed time goes to both accumulators (60_exceptions.md R242). The window of
R256 moves on by one iteration. -/
def deliver (delta : Nat) (s : State) : State :=
  { s with accTimer := s.accTimer + delta, accCpu := s.accCpu + delta,
           heldPrev := s.heldCur, heldCur := Held.only s.playing }

/-- set_key(k, p): key[k] <- p (60_exceptions.md R250). -/
def setKey (k : Fin 16) (p : Bool) (s : State) : State := { s with keys := s.keys.set k.val p k.isLt }

/-- The value of `playing` a pull reads: one held since the start of the iteration before the current one, a free
choice where both were (60_exceptions.md R256; log entry 8). -/
def readPlaying (s : State) : Bool :=
  if s.heldPrev.low || s.heldCur.low then
    if s.heldPrev.high || s.heldCur.high then Config.stalePlaying s.free else false
  else true

/-- The sample at the cursor. -/
def State.sampleAt (s : State) : Int := s.wave.getD s.cursor 0

/-- pull() for a given reading of `playing` (60_exceptions.md R255): the next sample, or silence with the cursor
held. The answered sample is left in `lastSample`. -/
def pullWith (reads : Bool) (s : State) : State :=
  if reads then { s with lastSample := s.sampleAt, cursor := (s.cursor + 1) % s.wave.length }
  else { s with lastSample := 0 }

/-- pull() (60_exceptions.md R255, R256), one atomic step of the audio agent. -/
def pull (s : State) : State := { pullWith (readPlaying s) s with free := s.free + 1 }

/-- quit(): status <- Quit if Running (60_exceptions.md R258, R260). -/
def quit (s : State) : State := if s.status = .running then { s with status := .quit } else s

/-- is_playing() (60_exceptions.md R254). -/
def State.isPlaying (s : State) : Bool := s.playing

/-- frame(): the read-only view of the frame buffer, true for a set pixel (60_exceptions.md R258). -/
def State.frame (s : State) (x y : Nat) : Bool := pixelAt s.fb x y

/-- A host move applied to the machine. -/
def applyMove (m : HostMove) (s : State) : State :=
  match m with
  | .elapsed delta => deliver delta s
  | .setKey k p => setKey k p s
  | .pull => pull s
  | .quit => quit s
  | .letRun => s

/-! ## Whose move is next -/

/-- The agent that takes the next step. -/
inductive Turn where
  /-- status ≠ Running: nobody moves (60_exceptions.md R245). -/
  | halted
  /-- An input, a pull or a quit lands at this boundary between two ticks. -/
  | host (m : HostMove) (rest : List HostMove)
  /-- A timer tick is due. -/
  | timer
  /-- A CPU tick is due. -/
  | cpu
  /-- Both accumulators are drained: the core waits for the host. -/
  | idle
  deriving DecidableEq, Repr

/-- acc_timer ≥ T_timer (60_exceptions.md R242). -/
def State.timerDue (s : State) : Bool := decide (s.params.timerPeriod ≤ s.accTimer)

/-- acc_cpu ≥ T_cpu (60_exceptions.md R242). -/
def State.cpuDue (s : State) : Bool := decide (s.params.cpuPeriod ≤ s.accCpu)

/-- What the core does next when no host move lands: every due timer tick before every due CPU tick
(60_exceptions.md R234, R242). -/
def coreTurn (s : State) : Turn := if s.timerDue then .timer else if s.cpuDue then .cpu else .idle

/-- Whose move is next. Elapsed time starts an iteration only when the one before has drained; other host moves land
between any two ticks (20_memory.md R68, 60_exceptions.md R257). -/
def turn (s : State) : Turn :=
  if s.status = .running then
    match s.pending with
    | .setKey k p :: rest => .host (.setKey k p) rest
    | .pull :: rest => .host .pull rest
    | .quit :: rest => .host .quit rest
    | .elapsed _ :: _ => coreTurn s
    | .letRun :: _ => coreTurn s
    | [] => coreTurn s
  else .halted

/-- A silent boundary is used up by the tick that runs at it. -/
def State.popLetRun (s : State) : State :=
  match s.pending with
  | .letRun :: rest => { s with pending := rest }
  | .elapsed _ :: _ | .setKey _ _ :: _ | .pull :: _ | .quit :: _ | [] => s

/-- One timer tick of the drain: timer_tick(); acc_timer <- acc_timer − T_timer (60_exceptions.md R242). -/
def timerStep (s : State) : State :=
  { timerTick s.popLetRun with accTimer := s.accTimer - s.params.timerPeriod }

/-- acc_cpu <- acc_cpu − T_cpu after a CPU tick (60_exceptions.md R242). -/
def State.drainCpu (s : State) : State := { s with accCpu := s.accCpu - s.params.cpuPeriod }

/-- The core waits: the host's next decided move is taken, or a free one where none is decided (log entry 6). -/
def idleStep (s : State) : State :=
  match s.pending with
  | m :: rest => applyMove m { s with pending := rest }
  | [] => applyMove (Config.hostMove s.free) { s with free := s.free + 1 }

end Sys2Proof.Machine
end

