-- ==== Sys2Proof/Machine/Tick.lean ====
section
/-! DEFINITION. The CPU tick (40_execute_cycle.md), the scheduler iteration (60_exceptions.md R242) and one step of
whichever agent moves next. -/

namespace Sys2Proof.Machine

/-- Fetch: the byte at pc, then the byte at pc + 1, combined big-endian (40_execute_cycle.md R101, R102). -/
def fetch (s : State) : Except Fault Word :=
  match memRead s s.pc.toNat with
  | .error f => .error f
  | .ok hi =>
    match memRead s (s.pc.toNat + 1) with
    | .error f => .error f
    | .ok lo => .ok (combine hi lo)

/-- The end of a tick from the instruction's outcome (40_execute_cycle.md R109): a fatal error goes to `status` and
leaves the rest unspecified (R107); a refused tick writes only `status`, so everything else is as `before` the tick
(60_exceptions.md R228; log entry 4). -/
def endTick (before : State) (r : Host.Outcome State Fault Refusal) : Host.Outcome State Fault Refusal :=
  match r with
  | .next t => .next t
  | .fault f => .next (before.raise f)
  | .refused (.fontDigitOutOfRange v) => .next (before.refuse (.fontDigitOutOfRange v))
  | .refused (.keyIndexOutOfRange v) => .next (before.refuse (.keyIndexOutOfRange v))
  | .refused other => .refused other

/-- The state an instruction executes in: pc advanced before dispatch (40_execute_cycle.md R103). -/
def State.advanced (s : State) : State := s.setPc (s.pc + 2#16)

/-- Decode and execute an opcode that has been fetched (40_execute_cycle.md R103 to R106, R110). -/
def runOpcode (op : Word) (s : State) : Host.Outcome State Fault Refusal :=
  match decode s.params.enableExA1 op with
  | .error _ => .next (s.advanced.finish op s.pc)
  | .ok i => endTick s (exec i s.advanced)

/-- The complete CPU tick of a running machine (40_execute_cycle.md R110). -/
def cpuTick (s : State) : Host.Outcome State Fault Refusal :=
  match fetch s with
  | .error f => .next (s.raise f)
  | .ok op => runOpcode op s

/-- One CPU tick of the drain: cpu_tick(); acc_cpu <- acc_cpu − T_cpu (60_exceptions.md R242). -/
def cpuStep (s : State) : Host.Outcome State Fault Refusal :=
  match cpuTick s.popLetRun with
  | .next t => .next t.drainCpu
  | .fault f => .fault f
  | .refused r => .refused r

/-- One step of whichever agent moves next. A halted machine keeps its state (60_exceptions.md R245, R237). -/
def machineStep (s : State) : Host.Outcome State Fault Refusal :=
  match turn s with
  | .halted => .next s
  | .host m rest => .next (applyMove m { s with pending := rest })
  | .timer => .next (timerStep s)
  | .cpu => cpuStep s
  | .idle => .next (idleStep s)

/-! ## The scheduler iteration as one operation -/

/-- `n` timer ticks of the drain. -/
def drainTimers : Nat → State → State
  | 0, s => s
  | n + 1, s => drainTimers n (timerStep s)

/-- At most `n` CPU ticks of the drain, stopping where status leaves Running. -/
def drainCpus : Nat → State → Host.Outcome State Fault Refusal
  | 0, s => .next s
  | n + 1, s =>
    if s.status = .running then
      match cpuStep s with
      | .next t => drainCpus n t
      | .fault f => .fault f
      | .refused r => .refused r
    else .next s

/-- iteration(Δ) (60_exceptions.md R242): the number of ticks in each drain is the number of whole periods in its
accumulator. -/
def iteration (delta : Nat) (s : State) : Host.Outcome State Fault Refusal :=
  if s.status = .running then
    let s₁ := deliver delta s
    let s₂ := drainTimers (s₁.accTimer / s₁.params.timerPeriod) s₁
    drainCpus (s₂.accCpu / s₂.params.cpuPeriod) s₂
  else .next s

/-! ## Placing an instruction -/

/-- The option that an opcode needs to be an instruction: ExA1 needs P_ENABLE_EXA1 (30_encoding.md R79). -/
def needsExA1 (op : Word) : Bool := decide (decode true op ≠ decode false op)

/-- An opcode placed at pc, with the machine about to run it (log entry 12). -/
def placeForFetch (op : Word) (s : State) : State :=
  let b := opcodeBytes op
  let t := (s.poke s.pc.toNat b.1).poke (s.pc.toNat + 1) b.2
  { t with status := .running, pending := [], accTimer := 0, accCpu := s.params.cpuPeriod,
           params := { s.params with enableExA1 := s.params.enableExA1 || needsExA1 op } }

end Sys2Proof.Machine
end

