-- ==== Sys2Proof/Machine/Step.lean ====
section
/-! DEFINITION. One step of the machine, and an instruction placed where the next step fetches. -/

namespace Sys2Proof.Machine

/-- One step: a timer tick, a CPU tick or a host move, whichever is next. -/
def step (s : State) : Host.Outcome State Fault Refusal := machineStep s

/-- `s` with the opcode table's word stored at pc and with all that the very next step needs to run it: the machine
running, no host move pending, no timer tick due, one CPU tick due, ExA1 enabled where the word is one
(log entry 12). -/
def State.withFetchWord (s : State) (nbits w : Nat) : State := placeForFetch (tableWord nbits w) s

end Sys2Proof.Machine
end

