-- ==== Sys2Proof/Machine/Boot.lean ====
section
/-! DEFINITION. The ROM load, the process's exit codes and the host's key map (70_reset_and_hazards.md R270 to R272,
60_exceptions.md R220, R226, R227, R261, R262). A load happens before the machine starts, so it is no step of the machine. -/

namespace Sys2Proof.Machine

/-- Why a ROM is not loaded (60_exceptions.md R226, R227). -/
inductive LoadError where
  | romTooLarge (size : Nat)
  | romReadFailure
  deriving DecidableEq, Repr

/-- ROM_MAX = 4096 − 0x200 (00_scope.md R7). -/
def romMax : Nat := 3584

/-- Byte k of the file goes to address a + k (70_reset_and_hazards.md R271). -/
def placeBytes (s : State) (a : Nat) : List Byte → State
  | [] => s
  | b :: bs => placeBytes (s.poke a b) (a + 1) bs

/-- rom_load(bytes) on an initialised machine; `none` is a file that cannot be read (70_reset_and_hazards.md R271,
R272). -/
def romLoad (file : Option (List Byte)) (s : State) : Except LoadError State :=
  match file with
  | none => .error .romReadFailure
  | some [] => .error .romReadFailure
  | some (b :: bs) =>
    if romMax < (b :: bs).length then .error (.romTooLarge (b :: bs).length)
    else .ok (placeBytes s 0x200 (b :: bs))

/-- Initialisation with a ROM (70_reset_and_hazards.md R270). -/
def boot (p : Params) (file : Option (List Byte)) : Except LoadError State := romLoad file (State.initial p)

/-- The error codes of 60_exceptions.md R220. -/
def faultCode (f : Fault) : Nat :=
  match f with
  | .outOfBoundsMemory _ => 1
  | .outOfBoundsFrameBuffer _ _ => 2
  | .stackOverflow _ => 3
  | .stackUnderflow _ => 4

/-- The code of UnknownOpcode (60_exceptions.md R220). -/
def unknownOpcodeCode : Nat := 5

/-- The codes of the load failures (60_exceptions.md R220). -/
def loadErrorCode (e : LoadError) : Nat :=
  match e with
  | .romTooLarge _ => 6
  | .romReadFailure => 7

/-- The process exit code of a run that has ended; a refused run has none (60_exceptions.md R261). -/
def exitCode (st : Status) : Option Nat :=
  match st with
  | .running => none
  | .finished _ _ => some 0
  | .quit => some 0
  | .fatal _ => some 1
  | .refused _ => none

/-- The process exit code of a load failure (60_exceptions.md R261, 70_reset_and_hazards.md R272). -/
def loadExitCode (_e : LoadError) : Nat := 1

/-- The key that a host keyboard character stands for, informative in the spec (60_exceptions.md R262). -/
def hostKey (c : Char) : Option (Fin 16) :=
  match c with
  | 'x' => some 0x0
  | '1' => some 0x1
  | '2' => some 0x2
  | '3' => some 0x3
  | 'q' => some 0x4
  | 'w' => some 0x5
  | 'e' => some 0x6
  | 'a' => some 0x7
  | 's' => some 0x8
  | 'd' => some 0x9
  | 'z' => some 0xA
  | 'c' => some 0xB
  | '4' => some 0xC
  | 'r' => some 0xD
  | 'f' => some 0xE
  | 'v' => some 0xF
  | _ => none

end Sys2Proof.Machine
end

