-- ==== Sys2Proof/Safety.lean ====
section
/-! DEFINITION. What counts as a good state and a good end, and the frame relations in whose terms claims are stated. -/

namespace Sys2Proof.Machine

/-- A bad end of a run, which a claim must exclude (60_exceptions.md R260). -/
def badEnd (st : Status) : Bool :=
  match st with
  | .fatal _ => true
  | .refused _ => true
  | .running | .finished _ _ | .quit => false

/-- A good end: the program's own end or a clean quit (60_exceptions.md R260). -/
def goodEnd (st : Status) : Bool :=
  match st with
  | .finished _ _ => true
  | .quit => true
  | .running | .fatal _ | .refused _ => false

/-- The state is not the unspecified one that a fatal error leaves (40_execute_cycle.md R107). -/
def specified (st : Status) : Bool :=
  match st with
  | .fatal _ => false
  | .running | .finished _ _ | .refused _ | .quit => true

/-- At most one key is pressed: the premise under which a claim may use Fx0A (70_reset_and_hazards.md R275 (d)). -/
def atMostOneKey (s : State) : Prop := ∀ j k : Fin 16, s.isPressed j = true → s.isPressed k = true → j = k

/-- The invariant of the machine. Always: the parameters are legal (00_scope.md R8) and memory is in canonical form.
Unless a fatal error left the state unspecified: the stack is within capacity (10_state.md R28) and holds addresses of at
most 4096, pc is at most 4098 (R27), the waveform is the generated one (R37), the cursor is below N (R38), and the
present value of `playing` is among those held in the current iteration (60_exceptions.md R256). -/
def Inv (s : State) : Prop :=
  s.params.legal ∧ Memory.wf s.params s.mem = true ∧
  (specified s.status = true →
    s.stack.length ≤ s.params.stackCapacity ∧ (∀ a ∈ s.stack, a.toNat ≤ 4096) ∧ s.pc.toNat ≤ 4098 ∧
    s.wave = synthWave s.params.waveform ∧ s.cursor < s.wave.length ∧
    (if s.playing then s.heldCur.high = true else s.heldCur.low = true))

/-- Every byte of memory reads as before. -/
def SameBytes (s t : State) : Prop := ∀ a, t.peek a = s.peek a

/-- Every byte of memory outside the `n` bytes from `a` reads as before. -/
def SameBytesOutside (a n : Nat) (s t : State) : Prop := ∀ b, b < a ∨ a + n ≤ b → t.peek b = s.peek b

/-- Every general register but those listed is unchanged. -/
def SameRegsBut (ws : List Reg) (s t : State) : Prop := ∀ r, r ∉ ws → t.reg r = s.reg r

/-- Nothing changed but, of the general registers, those listed. -/
def WritesOnlyRegs (ws : List Reg) (s t : State) : Prop :=
  SameRegsBut ws s t ∧ t = { s with v := t.v } ∧ SameBytes s t

/-- Nothing changed but pc. -/
def WritesOnlyPc (s t : State) : Prop := t = { s with pc := t.pc } ∧ SameBytes s t

/-- Nothing changed but I. -/
def WritesOnlyI (s t : State) : Prop := t = { s with i := t.i } ∧ SameBytes s t

end Sys2Proof.Machine
end

