-- ==== Sys2Proof/Certificates/Slice0/Obligations.lean ====
section
/-! DEFINITION. The statements for the provers, one definition each, named in OBLIGATIONS.json. Statements about an
instruction give the word of its encoding, the next state it answers with and its frame, or the stop. `s.pc` in a
statement about `exec` is the pc already advanced by the fetch (40_execute_cycle.md R106). -/

namespace Sys2Proof.Claims

open Sys2Proof.Machine

/-- The opcode with hex digits t nnn (30_encoding.md R71). -/
def wordA (t : Nat) (nnn : Addr12) : Word := BitVec.ofNat 16 (t * 4096 + nnn.toNat)

/-- The opcode with hex digits t x kk (30_encoding.md R71). -/
def wordXK (t : Nat) (x : Reg) (kk : Nat) : Word := BitVec.ofNat 16 (t * 4096 + x.toNat * 256 + kk)

/-- The opcode with hex digits t x y n (30_encoding.md R71). -/
def wordXY (t : Nat) (x y : Reg) (n : Nat) : Word := BitVec.ofNat 16 (t * 4096 + x.toNat * 256 + y.toNat * 16 + n)

/-- V[r] after VF has been written with `f` (42_alu.md R139, the second statement under Sequential). -/
def regAfterFlag (s : State) (f : Byte) (r : Reg) : Byte := if r = VF then f else s.reg r

/-- The bit `c` of sprite row `r` is set and its wrapped pixel is (px, py) (44_display.md R191). -/
def SpriteCovers (s : State) (cx cy n px py : Nat) : Prop :=
  ∃ r c, r < n ∧ c < 8 ∧ (s.peek (s.i.toNat + r)).getLsbD (7 - c) = true ∧
    (cx + c) % 64 = px ∧ (cy + r) % 32 = py

/-- The destination registers of an instruction (10_state.md R22). -/
def destinations (i : Instr) : List Reg :=
  match i with
  | .ldImm x _ | .addImm x _ | .rnd x _ => [x]
  | .ldReg x _ | .orReg x _ | .andReg x _ | .xorReg x _ => [x]
  | .addReg x _ | .sub x _ | .shr x _ | .subn x _ | .shl x _ => [x, VF]
  | .drw _ _ _ => [VF]
  | .ldVxDt x | .ldVxK x => [x]
  | .ldVxMem x => (List.range (x.toNat + 1)).map (BitVec.ofNat 4)
  | .cls | .ret | .jp _ | .call _ | .seImm _ _ | .sneImm _ _ | .sneReg _ _ | .ldI _ | .skp _ | .sknp _ => []
  | .ldDtVx _ | .ldStVx _ | .addIVx _ | .ldFVx _ | .ldBVx _ | .ldMemVx _ => []

/-- The instructions that store to memory (20_memory.md R59). -/
def stores (i : Instr) : Bool :=
  match i with
  | .ldBVx _ | .ldMemVx _ => true
  | .cls | .ret | .jp _ | .call _ | .seImm _ _ | .sneImm _ _ | .ldImm _ _ | .addImm _ _ | .ldReg _ _ => false
  | .orReg _ _ | .andReg _ _ | .xorReg _ _ | .addReg _ _ | .sub _ _ | .shr _ _ | .subn _ _ | .shl _ _ => false
  | .sneReg _ _ | .ldI _ | .rnd _ _ | .drw _ _ _ | .skp _ | .sknp _ | .ldVxDt _ | .ldVxK _ | .ldDtVx _ => false
  | .ldStVx _ | .addIVx _ | .ldFVx _ | .ldVxMem _ => false

/-- The host moves left pending by a tick that runs at this boundary; none where a host move lands here instead
(60_exceptions.md R257, 20_memory.md R68; log entry 6). -/
def pendingAfterTick (moves : List HostMove) : Option (List HostMove) :=
  match moves with
  | [] => some []
  | .elapsed delta :: rest => some (.elapsed delta :: rest)
  | .letRun :: rest => some rest
  | .setKey _ _ :: _ | .pull :: _ | .quit :: _ => none

/-- A CPU tick runs in the next step and leaves the host moves `rest` pending (60_exceptions.md R242). -/
def CpuTickRuns (s : State) (rest : List HostMove) : Prop :=
  s.status = .running ∧ pendingAfterTick s.pending = some rest ∧
    s.accTimer < s.params.timerPeriod ∧ s.params.cpuPeriod ≤ s.accCpu

/-- The number of iterations' ticks: timer ticks and CPU ticks run while iterations with the given elapsed times follow
one another, and the state after them, where the machine runs throughout (60_exceptions.md R242, R246). -/
def iterateRunning : List Nat → State → Option (Nat × Nat × State)
  | [], s => some (0, 0, s)
  | delta :: rest, s =>
    match iteration delta s with
    | .next t =>
      if t.status = .running then
        match iterateRunning rest t with
        | some (timers, cpus, u) =>
          some ((s.accTimer + delta) / s.params.timerPeriod + timers,
            (s.accCpu + delta) / s.params.cpuPeriod + cpus, u)
        | none => none
      else none
    | .fault _ => none
    | .refused _ => none

end Sys2Proof.Claims

open Sys2Proof Sys2Proof.Machine Sys2Proof.Claims

/-! ## Encoding -/

/-- 30_encoding.md R75, R77: decoding the word of an instruction of the machine gives it back, every operand at every
value. -/
def Obligations.DecodeOfEncodeIsTheInstruction : Prop :=
  ∀ (e : Bool) (i : Instr), WellFormed e i = true → decode e (encode i) = .ok i

/-- 30_encoding.md R75 "Every word matches at most one row": a decoded word is the word of its instruction, and the
instruction exists on the machine. -/
def Obligations.EncodeOfDecodeIsTheWord : Prop :=
  ∀ (e : Bool) (op : Word) (i : Instr), decode e op = .ok i → encode i = op ∧ WellFormed e i = true

/-- Words written out from the patterns of 30_encoding.md R77, one or more per family, and unknown ones of R78. -/
def Obligations.SampleWordsDecode : Prop :=
  decode false 0x00E0 = .ok .cls ∧ decode false 0x00EE = .ok .ret ∧ decode false 0x1ABC = .ok (.jp 0xABC) ∧
  decode false 0x3A02 = .ok (.seImm 0xA 0x02) ∧ decode false 0x8127 = .ok (.subn 1 2) ∧
  decode false 0xD123 = .ok (.drw 1 2 3) ∧ decode false 0xE39E = .ok (.skp 3) ∧ decode true 0xE3A1 = .ok (.sknp 3) ∧
  decode false 0xF265 = .ok (.ldVxMem 2) ∧ decode false 0xE3A1 = .error (.unknownOpcode 0xE3A1) ∧
  decode false 0x5000 = .error (.unknownOpcode 0x5000)

/-- 30_encoding.md R78, R79: the words that decode to nothing are exactly those of the list, ExA1 among them only
where the option is off. -/
def Obligations.UnknownWordsAreThoseListed : Prop :=
  ∀ (e : Bool) (op : Word), decode e op = .error (.unknownOpcode op) ↔
    (op.toNat / 4096 = 0x0 ∧ op.toNat ≠ 0x00E0 ∧ op.toNat ≠ 0x00EE) ∨
    op.toNat / 4096 = 0x5 ∨ op.toNat / 4096 = 0xB ∨
    (op.toNat / 4096 = 0x8 ∧ op.toNat % 16 ∈ [0x8, 0x9, 0xA, 0xB, 0xC, 0xD, 0xF]) ∨
    (op.toNat / 4096 = 0x9 ∧ op.toNat % 16 ≠ 0) ∨
    (op.toNat / 4096 = 0xE ∧ op.toNat % 256 ≠ 0x9E ∧ (op.toNat % 256 = 0xA1 → e = false)) ∨
    (op.toNat / 4096 = 0xF ∧
      op.toNat % 256 ∉ [0x07, 0x0A, 0x15, 0x18, 0x1E, 0x29, 0x33, 0x55, 0x65])

/-! ## Memory -/

/-- 20_memory.md R52: a read after a write to the same address gives the byte written, and a write changes only that
byte. -/
def Obligations.ReadAfterWriteGivesTheByte : Prop :=
  ∀ (s : State) (a : Nat) (v : Byte), a < 4096 →
    ∃ t, memWrite s a v = .ok t ∧ memRead t a = .ok v ∧ (∀ b, b ≠ a → memRead t b = memRead s b) ∧
      t = { s with mem := t.mem }

/-- 20_memory.md R51: an access fails exactly when its address is at least 4096. -/
def Obligations.AccessesOutsideMemoryFault : Prop :=
  ∀ (s : State) (a : Nat) (v : Byte),
    (memRead s a = if a ≥ 4096 then .error (.outOfBoundsMemory a) else .ok (s.peek a)) ∧
    (a ≥ 4096 → memWrite s a v = .error (.outOfBoundsMemory a)) ∧
    (a < 4096 → ∃ t, memWrite s a v = .ok t ∧ t.peek a = v)

/-! ## The CPU tick -/

/-- 40_execute_cycle.md R101, 20_memory.md R55: the fetch reads two bytes from pc, big-endian; the first address outside
memory is the fault's, and a fetch fault is fatal. -/
def Obligations.FetchReadsTwoBytesOrFaults : Prop :=
  ∀ s : State,
    (s.pc.toNat + 1 < 4096 → ∃ op, fetch s = .ok op ∧
      op.toNat = (s.peek s.pc.toNat).toNat * 256 + (s.peek (s.pc.toNat + 1)).toNat) ∧
    (s.pc.toNat ≥ 4096 → fetch s = .error (.outOfBoundsMemory s.pc.toNat)) ∧
    (s.pc.toNat = 4095 → fetch s = .error (.outOfBoundsMemory (s.pc.toNat + 1))) ∧
    (∀ f, fetch s = .error f → ∃ t, cpuTick s = .next t ∧ t.status = .fatal f)

/-- 40_execute_cycle.md R103, R106, R110; 60_exceptions.md R242: where a CPU tick runs next, the step is that tick, with one
CPU period taken off the accumulator. So it executes the decoded instruction on the advanced pc, or records in status the
fault of the fetch, the unknown word, the instruction's fault or its refusal. Which host moves let a tick run is the model's
own (log entry 6), and so is that an error is a next state (log entries 3, 4, 23). -/
def Obligations.StepRunsTheDecodedInstruction : Prop :=
  ∀ (s : State) (rest : List HostMove), CpuTickRuns s rest →
    (∀ t, cpuTick { s with pending := rest } = .next t →
      step s = .next { t with accCpu := t.accCpu - t.params.cpuPeriod }) ∧
    (∀ op i t, fetch s = .ok op → decode s.params.enableExA1 op = .ok i →
      exec i { s with pc := s.pc + 2#16, pending := rest } = .next t →
      step s = .next { t with accCpu := t.accCpu - t.params.cpuPeriod }) ∧
    (∀ f, fetch s = .error f → ∃ t, step s = .next t ∧ t.status = .fatal f) ∧
    (∀ op e, fetch s = .ok op → decode s.params.enableExA1 op = .error e →
      step s = .next { s with pc := s.pc + 2#16, status := .finished op s.pc, pending := rest,
                              accCpu := s.accCpu - s.params.cpuPeriod }) ∧
    (∀ op i f, fetch s = .ok op → decode s.params.enableExA1 op = .ok i →
      exec i { s with pc := s.pc + 2#16, pending := rest } = .fault f →
      ∃ t, step s = .next t ∧ t.status = .fatal f) ∧
    (∀ op i v, fetch s = .ok op → decode s.params.enableExA1 op = .ok i →
      (exec i { s with pc := s.pc + 2#16, pending := rest } = .refused (.keyIndexOutOfRange v) →
        step s = .next { s with status := .refused (.keyIndexOutOfRange v), pending := rest,
                                accCpu := s.accCpu - s.params.cpuPeriod }) ∧
      (exec i { s with pc := s.pc + 2#16, pending := rest } = .refused (.fontDigitOutOfRange v) →
        step s = .next { s with status := .refused (.fontDigitOutOfRange v), pending := rest,
                                accCpu := s.accCpu - s.params.cpuPeriod }))

/-- 40_execute_cycle.md R105: an unknown word ends the tick with its opcode and address recorded; pc keeps its advanced
value and nothing else changes. -/
def Obligations.UnknownOpcodeFinishesTheRun : Prop :=
  ∀ (s : State) (op : Word) (e : DecodeError),
    fetch s = .ok op → decode s.params.enableExA1 op = .error e →
    cpuTick s = .next { s with pc := s.pc + 2#16, status := .finished op s.pc }

/-- 60_exceptions.md R229, R245: a fatal error of an instruction is recorded in status with its info (as a next state: log
entry 3), and no step changes the machine afterwards. That no step does so even with host moves pending is the model's
reading (log entry 11). -/
def Obligations.FatalErrorsAreRecordedInStatus : Prop :=
  ∀ (s : State) (op : Word) (i : Instr) (f : Fault),
    fetch s = .ok op → decode s.params.enableExA1 op = .ok i → exec i { s with pc := s.pc + 2#16 } = .fault f →
    ∃ t, cpuTick s = .next t ∧ t.status = .fatal f ∧ step t = .next t

/-- 60_exceptions.md R228 "A refused tick writes only `status`"; that pc is then as before the tick is the model's reading
(log entry 4). -/
def Obligations.RefusedTicksWriteOnlyStatus : Prop :=
  ∀ (s : State) (op : Word) (i : Instr) (v : Byte),
    fetch s = .ok op → decode s.params.enableExA1 op = .ok i →
    (exec i { s with pc := s.pc + 2#16 } = .refused (.keyIndexOutOfRange v) →
      cpuTick s = .next { s with status := .refused (.keyIndexOutOfRange v) }) ∧
    (exec i { s with pc := s.pc + 2#16 } = .refused (.fontDigitOutOfRange v) →
      cpuTick s = .next { s with status := .refused (.fontDigitOutOfRange v) })

/-- 10_state.md R40, 60_exceptions.md R245, R232: once status has left Running no step changes anything. -/
def Obligations.HaltedMachineKeepsItsState : Prop :=
  ∀ s : State, s.status ≠ .running → step s = .next s

/-- 40_execute_cycle.md R109, 60_exceptions.md R220, R228 to R232: every step answers a state. Status becomes Fatal only for
a fault of the tick's fetch or instruction, Finished only for an unknown word at pc, Refused only for a refusal of the
instruction, each with its info; and nothing sets it back to Running. That these ends are next states is the model's form
(log entries 3, 4, 23); which host moves let a tick run is its own (log entry 6). -/
def Obligations.EveryStepAnswersAState : Prop :=
  ∀ s : State, ∃ t, step s = .next t ∧
    (t.status = .running → s.status = .running) ∧
    (∀ f, t.status = .fatal f → s.status = .fatal f ∨ ∃ rest, CpuTickRuns s rest ∧
      (fetch s = .error f ∨ ∃ op i, fetch s = .ok op ∧ decode s.params.enableExA1 op = .ok i ∧
        exec i { s with pc := s.pc + 2#16, pending := rest } = .fault f)) ∧
    (∀ op a, t.status = .finished op a → s.status = .finished op a ∨ ∃ rest, CpuTickRuns s rest ∧
      a = s.pc ∧ fetch s = .ok op ∧ ∃ e, decode s.params.enableExA1 op = .error e) ∧
    (∀ v, t.status = .refused (.keyIndexOutOfRange v) → s.status = .refused (.keyIndexOutOfRange v) ∨
      ∃ rest op i, CpuTickRuns s rest ∧ fetch s = .ok op ∧ decode s.params.enableExA1 op = .ok i ∧
        exec i { s with pc := s.pc + 2#16, pending := rest } = .refused (.keyIndexOutOfRange v)) ∧
    (∀ v, t.status = .refused (.fontDigitOutOfRange v) → s.status = .refused (.fontDigitOutOfRange v) ∨
      ∃ rest op i, CpuTickRuns s rest ∧ fetch s = .ok op ∧ decode s.params.enableExA1 op = .ok i ∧
        exec i { s with pc := s.pc + 2#16, pending := rest } = .refused (.fontDigitOutOfRange v))

/-! ## Invariants and initialisation -/

/-- 10_state.md R27, R28, R37, R38; 20_memory.md: what every step keeps, from every state that has it. -/
def Obligations.StepKeepsTheInvariant : Prop := ∀ s t : State, Inv s → step s = .next t → Inv t

/-- The invariant holds after initialisation (10_state.md R44). -/
def Obligations.ResetMeetsTheInvariant : Prop := Inv State.reset

/-- 10_state.md R41: no step changes a parameter. -/
def Obligations.StepKeepsTheParameters : Prop := ∀ s t : State, step s = .next t → t.params = s.params

/-- 10_state.md R44, for every legal choice of the parameters and before a ROM is placed; that the default parameters
stand at reset is 00_scope.md R8. -/
def Obligations.InitialValues : Prop :=
  State.reset = State.initial Params.default ∧
  ∀ p : Params, p.legal →
    (∀ r, (State.initial p).reg r = 0#8) ∧ (State.initial p).i = 0#16 ∧ (State.initial p).pc = 0x200#16 ∧
    (State.initial p).stack = [] ∧ (State.initial p).dt = 0#8 ∧ (State.initial p).st = 0#8 ∧
    (State.initial p).playing = false ∧ (∀ x y, (State.initial p).frame x y = false) ∧
    (∀ k, (State.initial p).isPressed k = false) ∧
    (∀ k, k < 80 → (State.initial p).peek (p.fontBase + k) = p.fontData.getD k 0#8) ∧
    (∀ a, a < p.fontBase ∨ p.fontBase + 80 ≤ a → (State.initial p).peek a = 0#8) ∧
    (State.initial p).wave = synthWave p.waveform ∧ (State.initial p).cursor = 0 ∧
    (State.initial p).accTimer = 0 ∧ (State.initial p).accCpu = 0 ∧ (State.initial p).status = .running

/-- 70_reset_and_hazards.md R271: byte k of the file goes to 0x200 + k, memory past the file stays 0. -/
def Obligations.RomLoadPlacesTheImage : Prop :=
  ∀ (p : Params) (file : List Byte), p.legal → 1 ≤ file.length → file.length ≤ 3584 →
    ∃ t, boot p (some file) = .ok t ∧ t = { State.initial p with mem := t.mem } ∧
      (∀ k, k < file.length → t.peek (0x200 + k) = file.getD k 0#8) ∧
      (∀ a, 0x200 + file.length ≤ a → a < 4096 → t.peek a = 0#8) ∧
      (∀ a, a < 0x200 → t.peek a = (State.initial p).peek a)

/-- 70_reset_and_hazards.md R272: which files do not load, under which error, and with exit code 1. -/
def Obligations.RomLoadFailures : Prop :=
  ∀ p : Params,
    boot p none = .error .romReadFailure ∧ boot p (some []) = .error .romReadFailure ∧
    (∀ file : List Byte, 4096 - 0x200 < file.length → boot p (some file) = .error (.romTooLarge file.length)) ∧
    (∀ e : LoadError, loadExitCode e = 1)

/-! ## Register loads, arithmetic, logic, shifts, random -/

/-- 42_alu.md R140. -/
def Obligations.LoadImmediateWritesTheRegister : Prop :=
  ∀ (e : Bool) (x : Reg) (kk : Byte) (s : State),
    decode e (wordXK 0x6 x kk.toNat) = .ok (.ldImm x kk) ∧
    ∃ t, exec (.ldImm x kk) s = .next t ∧ t.reg x = kk ∧ WritesOnlyRegs [x] s t

/-- 42_alu.md R141: no carry leaves the addition. -/
def Obligations.AddImmediateWrapsWithoutCarry : Prop :=
  ∀ (e : Bool) (x : Reg) (kk : Byte) (s : State),
    decode e (wordXK 0x7 x kk.toNat) = .ok (.addImm x kk) ∧
    ∃ t, exec (.addImm x kk) s = .next t ∧ (t.reg x).toNat = ((s.reg x).toNat + kk.toNat) % 256 ∧
      WritesOnlyRegs [x] s t

/-- 42_alu.md R142; x = y leaves the state unchanged. -/
def Obligations.CopyRegisterWritesTheRegister : Prop :=
  ∀ (e : Bool) (x y : Reg) (s : State),
    decode e (wordXY 0x8 x y 0x0) = .ok (.ldReg x y) ∧
    ∃ t, exec (.ldReg x y) s = .next t ∧ t.reg x = s.reg y ∧ WritesOnlyRegs [x] s t ∧ (x = y → t = s)

/-- 42_alu.md R143, R144, R145: bit by bit, and no flag is written. -/
def Obligations.BitwiseOperationsWriteTheRegister : Prop :=
  ∀ (e : Bool) (x y : Reg) (s : State),
    (decode e (wordXY 0x8 x y 0x1) = .ok (.orReg x y) ∧
      ∃ t, exec (.orReg x y) s = .next t ∧ WritesOnlyRegs [x] s t ∧
        ∀ k, (t.reg x).getLsbD k = ((s.reg x).getLsbD k || (s.reg y).getLsbD k)) ∧
    (decode e (wordXY 0x8 x y 0x2) = .ok (.andReg x y) ∧
      ∃ t, exec (.andReg x y) s = .next t ∧ WritesOnlyRegs [x] s t ∧
        ∀ k, (t.reg x).getLsbD k = ((s.reg x).getLsbD k && (s.reg y).getLsbD k)) ∧
    (decode e (wordXY 0x8 x y 0x3) = .ok (.xorReg x y) ∧
      ∃ t, exec (.xorReg x y) s = .next t ∧ WritesOnlyRegs [x] s t ∧
        ∀ k, (t.reg x).getLsbD k = ((s.reg x).getLsbD k ^^ (s.reg y).getLsbD k))

/-- 42_alu.md R146: sum and carry come from the old values under either order; with x = F the order says which of the
two stays in VF. -/
def Obligations.AddWritesSumAndCarry : Prop :=
  ∀ (e : Bool) (x y : Reg) (s : State),
    decode e (wordXY 0x8 x y 0x4) = .ok (.addReg x y) ∧
    ∃ t, exec (.addReg x y) s = .next t ∧ WritesOnlyRegs [x, VF] s t ∧
      (s.params.flagOrder = .sequential →
        (t.reg x).toNat = ((s.reg x).toNat + (s.reg y).toNat) % 256 ∧
        (x ≠ VF → t.reg VF = if (s.reg x).toNat + (s.reg y).toNat > 255 then 1#8 else 0#8)) ∧
      (s.params.flagOrder = .flagLast →
        (t.reg VF = if (s.reg x).toNat + (s.reg y).toNat > 255 then 1#8 else 0#8) ∧
        (x ≠ VF → (t.reg x).toNat = ((s.reg x).toNat + (s.reg y).toNat) % 256))

/-- 42_alu.md R147: the strict comparison, then the wrapped difference, in either order of P_FLAG_ORDER. -/
def Obligations.SubtractWritesDifferenceAndFlag : Prop :=
  ∀ (e : Bool) (x y : Reg) (s : State) (f : Byte), (f = if (s.reg x).toNat > (s.reg y).toNat then 1#8 else 0#8) →
    decode e (wordXY 0x8 x y 0x5) = .ok (.sub x y) ∧
    ∃ t, exec (.sub x y) s = .next t ∧ WritesOnlyRegs [x, VF] s t ∧
      (s.params.flagOrder = .sequential →
        (t.reg x).toNat = ((regAfterFlag s f x).toNat + 256 - (regAfterFlag s f y).toNat) % 256 ∧
        (x ≠ VF → t.reg VF = f)) ∧
      (s.params.flagOrder = .flagLast →
        t.reg VF = f ∧ (x ≠ VF → (t.reg x).toNat = ((s.reg x).toNat + 256 - (s.reg y).toNat) % 256))

/-- 42_alu.md R149: as R147 with the operands exchanged. -/
def Obligations.ReverseSubtractWritesDifferenceAndFlag : Prop :=
  ∀ (e : Bool) (x y : Reg) (s : State) (f : Byte), (f = if (s.reg y).toNat > (s.reg x).toNat then 1#8 else 0#8) →
    decode e (wordXY 0x8 x y 0x7) = .ok (.subn x y) ∧
    ∃ t, exec (.subn x y) s = .next t ∧ WritesOnlyRegs [x, VF] s t ∧
      (s.params.flagOrder = .sequential →
        (t.reg x).toNat = ((regAfterFlag s f y).toNat + 256 - (regAfterFlag s f x).toNat) % 256 ∧
        (x ≠ VF → t.reg VF = f)) ∧
      (s.params.flagOrder = .flagLast →
        t.reg VF = f ∧ (x ≠ VF → (t.reg x).toNat = ((s.reg y).toNat + 256 - (s.reg x).toNat) % 256))

/-- 42_alu.md R148: bit 0 goes to VF, the value is halved, y is not read. -/
def Obligations.ShiftRightWritesHalfAndFlag : Prop :=
  ∀ (e : Bool) (x y : Reg) (s : State) (f : Byte), f.toNat = (s.reg x).toNat % 2 →
    decode e (wordXY 0x8 x y 0x6) = .ok (.shr x y) ∧
    ∃ t, exec (.shr x y) s = .next t ∧ WritesOnlyRegs [x, VF] s t ∧
      (s.params.flagOrder = .sequential →
        (t.reg x).toNat = (regAfterFlag s f x).toNat / 2 ∧ (x ≠ VF → t.reg VF = f)) ∧
      (s.params.flagOrder = .flagLast →
        t.reg VF = f ∧ (x ≠ VF → (t.reg x).toNat = (s.reg x).toNat / 2))

/-- 42_alu.md R150: bit 7 goes to VF, the value is doubled mod 256, y is not read. -/
def Obligations.ShiftLeftWritesDoubleAndFlag : Prop :=
  ∀ (e : Bool) (x y : Reg) (s : State) (f : Byte), f.toNat = (s.reg x).toNat / 128 →
    decode e (wordXY 0x8 x y 0xE) = .ok (.shl x y) ∧
    ∃ t, exec (.shl x y) s = .next t ∧ WritesOnlyRegs [x, VF] s t ∧
      (s.params.flagOrder = .sequential →
        (t.reg x).toNat = (regAfterFlag s f x).toNat * 2 % 256 ∧ (x ≠ VF → t.reg VF = f)) ∧
      (s.params.flagOrder = .flagLast →
        t.reg VF = f ∧ (x ≠ VF → (t.reg x).toNat = (s.reg x).toNat * 2 % 256))

/-- 42_alu.md R151: one free draw, masked by kk; the model takes the draw from its counter of free values (log entry 7),
and the statement holds whatever that draw is. -/
def Obligations.RandomByteIsDrawnAndMasked : Prop :=
  ∀ (e : Bool) (x : Reg) (kk : Byte) (s : State),
    decode e (wordXK 0xC x kk.toNat) = .ok (.rnd x kk) ∧
    ∃ t, exec (.rnd x kk) s = .next t ∧ t.reg x = Config.randomByte s.free &&& kk ∧ (kk = 0#8 → t.reg x = 0#8) ∧
      SameRegsBut [x] s t ∧ t = { s with v := t.v, free := s.free + 1 } ∧ SameBytes s t

/-! ## Control flow -/

/-- 41_flow.md R121, and the fetch fault that a target of 0xFFF leads to. -/
def Obligations.JumpSetsPc : Prop :=
  ∀ (e : Bool) (nnn : Addr12) (s : State),
    decode e (wordA 0x1 nnn) = .ok (.jp nnn) ∧
    ∃ t, exec (.jp nnn) s = .next t ∧ t.pc.toNat = nnn.toNat ∧ WritesOnlyPc s t ∧
      (nnn.toNat = 0xFFF → fetch t = .error (.outOfBoundsMemory 0x1000))

/-- 41_flow.md R122: the advanced pc is pushed and pc is nnn; at capacity the fault records pc. -/
def Obligations.CallPushesAndJumpsOrOverflows : Prop :=
  ∀ (e : Bool) (nnn : Addr12) (s : State),
    decode e (wordA 0x2 nnn) = .ok (.call nnn) ∧
    (s.stack.length < s.params.stackCapacity → ∃ t, exec (.call nnn) s = .next t ∧
      t.stack = s.pc :: s.stack ∧ t.pc.toNat = nnn.toNat ∧
      t = { s with stack := t.stack, pc := t.pc } ∧ SameBytes s t) ∧
    (s.stack.length = s.params.stackCapacity → exec (.call nnn) s = .fault (.stackOverflow s.pc))

/-- 41_flow.md R120: the entry pushed last goes to pc and leaves the stack; an empty stack is a fault that records pc. -/
def Obligations.ReturnPopsOrUnderflows : Prop :=
  ∀ (e : Bool) (s : State),
    decode e 0x00EE#16 = .ok .ret ∧
    (∀ a rest, s.stack = a :: rest → ∃ t, exec .ret s = .next t ∧ t.pc = a ∧ t.stack = rest ∧
      t = { s with stack := t.stack, pc := t.pc } ∧ SameBytes s t) ∧
    (s.stack = [] → exec .ret s = .fault (.stackUnderflow s.pc))

/-- 10_state.md R28, R29: the stack is LIFO. A call and, from any state with the stack it left, the return bring back the
pc after the call and the stack before it. -/
def Obligations.ReturnUndoesCall : Prop :=
  ∀ (nnn : Addr12) (s t u w : State), exec (.call nnn) s = .next t → u.stack = t.stack → exec .ret u = .next w →
    w.pc = s.pc ∧ w.stack = s.stack

/-- 41_flow.md R123, R124; 40_execute_cycle.md R108: the skip adds 2 to the advanced pc exactly when the condition holds. -/
def Obligations.SkipsOnImmediate : Prop :=
  ∀ (e : Bool) (x : Reg) (kk : Byte) (s : State),
    (decode e (wordXK 0x3 x kk.toNat) = .ok (.seImm x kk) ∧
      ∃ t, exec (.seImm x kk) s = .next t ∧ (t.pc = if s.reg x = kk then s.pc + 2#16 else s.pc) ∧ WritesOnlyPc s t) ∧
    (decode e (wordXK 0x4 x kk.toNat) = .ok (.sneImm x kk) ∧
      ∃ t, exec (.sneImm x kk) s = .next t ∧ (t.pc = if s.reg x = kk then s.pc else s.pc + 2#16) ∧ WritesOnlyPc s t)

/-- 41_flow.md R125: skip when the registers differ; x = y never skips; the other 9xyN and 5xyN are no instructions. -/
def Obligations.SkipsOnRegistersThatDiffer : Prop :=
  ∀ (e : Bool) (x y : Reg) (s : State),
    decode e (wordXY 0x9 x y 0x0) = .ok (.sneReg x y) ∧
    (∀ n, 0 < n → n < 16 → decode e (wordXY 0x9 x y n) = .error (.unknownOpcode (wordXY 0x9 x y n))) ∧
    (∀ n, n < 16 → decode e (wordXY 0x5 x y n) = .error (.unknownOpcode (wordXY 0x5 x y n))) ∧
    ∃ t, exec (.sneReg x y) s = .next t ∧ (t.pc = if s.reg x = s.reg y then s.pc else s.pc + 2#16) ∧
      WritesOnlyPc s t ∧ (x = y → t = s)

/-! ## Index register and memory blocks -/

/-- 43_index_memory.md R170. -/
def Obligations.LoadIndexSetsI : Prop :=
  ∀ (e : Bool) (nnn : Addr12) (s : State),
    decode e (wordA 0xA nnn) = .ok (.ldI nnn) ∧
    ∃ t, exec (.ldI nnn) s = .next t ∧ t.i.toNat = nnn.toNat ∧ WritesOnlyI s t

/-- 43_index_memory.md R171: mod 2^16, no flag, no range check. -/
def Obligations.AddToIndexWraps : Prop :=
  ∀ (e : Bool) (x : Reg) (s : State),
    decode e (wordXK 0xF x 0x1E) = .ok (.addIVx x) ∧
    ∃ t, exec (.addIVx x) s = .next t ∧ t.i.toNat = (s.i.toNat + (s.reg x).toNat) % 65536 ∧ WritesOnlyI s t

/-- 43_index_memory.md R172: the glyph's address for a hexadecimal digit, else refused. -/
def Obligations.GlyphAddressOrRefused : Prop :=
  ∀ (e : Bool) (x : Reg) (s : State), s.params.legal →
    decode e (wordXK 0xF x 0x29) = .ok (.ldFVx x) ∧
    ((s.reg x).toNat ≤ 0xF → ∃ t, exec (.ldFVx x) s = .next t ∧
      t.i.toNat = s.params.fontBase + 5 * (s.reg x).toNat ∧ WritesOnlyI s t) ∧
    ((s.reg x).toNat > 0xF → exec (.ldFVx x) s = .refused (.fontDigitOutOfRange (s.reg x)))

/-- 43_index_memory.md R173: hundreds, tens and ones at I, I + 1, I + 2, I unchanged; else the fault names the first of
the three addresses outside memory. -/
def Obligations.StoreDecimalDigits : Prop :=
  ∀ (e : Bool) (x : Reg) (s : State),
    decode e (wordXK 0xF x 0x33) = .ok (.ldBVx x) ∧
    (s.i.toNat + 2 < 4096 → ∃ t, exec (.ldBVx x) s = .next t ∧
      (t.peek s.i.toNat).toNat = (s.reg x).toNat / 100 ∧
      (t.peek (s.i.toNat + 1)).toNat = (s.reg x).toNat / 10 % 10 ∧
      (t.peek (s.i.toNat + 2)).toNat = (s.reg x).toNat % 10 ∧
      SameBytesOutside s.i.toNat 3 s t ∧ t = { s with mem := t.mem }) ∧
    (s.i.toNat + 2 ≥ 4096 → exec (.ldBVx x) s = .fault (.outOfBoundsMemory (max s.i.toNat 4096)))

/-- 43_index_memory.md R174, whose "past" is I + x + 1 by the spec's own inference: V[r] at I + r for every r up to x, I past
the range; else the fault names the first address outside memory. -/
def Obligations.StoreRegistersToMemory : Prop :=
  ∀ (e : Bool) (x : Reg) (s : State),
    decode e (wordXK 0xF x 0x55) = .ok (.ldMemVx x) ∧
    (s.i.toNat + x.toNat < 4096 → ∃ t, exec (.ldMemVx x) s = .next t ∧
      (∀ r : Reg, r.toNat ≤ x.toNat → t.peek (s.i.toNat + r.toNat) = s.reg r) ∧
      t.i.toNat = (s.i.toNat + x.toNat + 1) % 65536 ∧
      SameBytesOutside s.i.toNat (x.toNat + 1) s t ∧ t = { s with mem := t.mem, i := t.i }) ∧
    (s.i.toNat + x.toNat ≥ 4096 → exec (.ldMemVx x) s = .fault (.outOfBoundsMemory (max s.i.toNat 4096)))

/-- 43_index_memory.md R175: V[r] from I + r for every r up to x, the other registers unchanged, I past the range; else the
fault names the first address outside memory. -/
def Obligations.LoadRegistersFromMemory : Prop :=
  ∀ (e : Bool) (x : Reg) (s : State),
    decode e (wordXK 0xF x 0x65) = .ok (.ldVxMem x) ∧
    (s.i.toNat + x.toNat < 4096 → ∃ t, exec (.ldVxMem x) s = .next t ∧
      (∀ r : Reg, r.toNat ≤ x.toNat → t.reg r = s.peek (s.i.toNat + r.toNat)) ∧
      (∀ r : Reg, x.toNat < r.toNat → t.reg r = s.reg r) ∧
      t.i.toNat = (s.i.toNat + x.toNat + 1) % 65536 ∧
      t = { s with v := t.v, i := t.i } ∧ SameBytes s t) ∧
    (s.i.toNat + x.toNat ≥ 4096 → exec (.ldVxMem x) s = .fault (.outOfBoundsMemory (max s.i.toNat 4096)))

/-! ## Display -/

/-- 44_display.md R190: every pixel 0, nothing else changes. -/
def Obligations.ClearZeroesEveryPixel : Prop :=
  ∀ (e : Bool) (s : State),
    decode e 0x00E0#16 = .ok .cls ∧
    ∃ t, exec .cls s = .next t ∧ (∀ px py, px < 64 → py < 32 → t.frame px py = false) ∧
      t = { s with fb := t.fb } ∧ SameBytes s t

/-- 44_display.md R191, whose rule for VF is the spec's own inference from its pseudocode: each wrapped pixel that a set
sprite bit covers is inverted, every other pixel stays, VF is 1 exactly when a covered pixel was set, and the coordinates
are the registers before VF is written; a row outside memory is a fault at the first such address. -/
def Obligations.DrawXorsTheSprite : Prop :=
  ∀ (e : Bool) (x y : Reg) (n : BitVec 4) (s : State),
    decode e (wordXY 0xD x y n.toNat) = .ok (.drw x y n) ∧
    (n.toNat = 0 ∨ s.i.toNat + n.toNat ≤ 4096 → ∃ t, exec (.drw x y n) s = .next t ∧
      (∀ px py, px < 64 → py < 32 →
        (t.frame px py = true ↔
          (s.frame px py = true ↔ ¬SpriteCovers s (s.reg x).toNat (s.reg y).toNat n.toNat px py))) ∧
      ((∃ px py, px < 64 ∧ py < 32 ∧ s.frame px py = true ∧
          SpriteCovers s (s.reg x).toNat (s.reg y).toNat n.toNat px py) → t.reg VF = 1#8) ∧
      ((∀ px py, px < 64 → py < 32 → s.frame px py = true →
          ¬SpriteCovers s (s.reg x).toNat (s.reg y).toNat n.toNat px py) → t.reg VF = 0#8) ∧
      SameRegsBut [VF] s t ∧ t = { s with v := t.v, fb := t.fb } ∧ SameBytes s t) ∧
    (n.toNat ≠ 0 ∧ s.i.toNat + n.toNat > 4096 →
      exec (.drw x y n) s = .fault (.outOfBoundsMemory (max s.i.toNat 4096)))

/-- 44_display.md R191, R192, as 90_conflicts.md C4 limits it: drawing a sprite again at the same place restores every
pixel. The second draw sets VF exactly when a covered pixel was clear before the first; where all of them were clear, exactly
when the sprite has a set bit (log entry 20). -/
def Obligations.DrawingTwiceRestoresThePixels : Prop :=
  ∀ (x y : Reg) (n : BitVec 4) (s t u w : State),
    exec (.drw x y n) s = .next t →
    u.fb = t.fb → u.i = s.i → (∀ r, r < n.toNat → u.peek (s.i.toNat + r) = s.peek (s.i.toNat + r)) →
    u.reg x = s.reg x → u.reg y = s.reg y →
    exec (.drw x y n) u = .next w →
    (∀ px py, px < 64 → py < 32 → w.frame px py = s.frame px py) ∧
    (w.reg VF = 1#8 ↔ ∃ px py, px < 64 ∧ py < 32 ∧ s.frame px py = false ∧
      SpriteCovers s (s.reg x).toNat (s.reg y).toNat n.toNat px py) ∧
    (w.reg VF = 0#8 ∨ w.reg VF = 1#8) ∧
    ((∀ px py, px < 64 → py < 32 → SpriteCovers s (s.reg x).toNat (s.reg y).toNat n.toNat px py →
        s.frame px py = false) →
      w.reg VF = if ∃ r < n.toNat, s.peek (s.i.toNat + r) ≠ 0#8 then 1#8 else 0#8)

/-! ## Keys and timers -/

/-- 45_timers_keys.md R200: the level of key V[x] decides the skip; a value that names no key is refused. -/
def Obligations.SkipsOnPressedKey : Prop :=
  ∀ (e : Bool) (x : Reg) (s : State),
    decode e (wordXK 0xE x 0x9E) = .ok (.skp x) ∧
    (∀ k : Fin 16, (s.reg x).toNat = k.val → ∃ t, exec (.skp x) s = .next t ∧
      (t.pc = if s.isPressed k = true then s.pc + 2#16 else s.pc) ∧ WritesOnlyPc s t) ∧
    ((s.reg x).toNat > 0xF → exec (.skp x) s = .refused (.keyIndexOutOfRange (s.reg x)))

/-- ExA1, whose semantics the spec marks "from general knowledge, not in source" (log entry 15): as SKP with the condition
negated, and a word of no instruction where its option is off. -/
def Obligations.SkipsOnReleasedKey : Prop :=
  ∀ (x : Reg) (s : State),
    decode true (wordXK 0xE x 0xA1) = .ok (.sknp x) ∧
    decode false (wordXK 0xE x 0xA1) = .error (.unknownOpcode (wordXK 0xE x 0xA1)) ∧
    (∀ k : Fin 16, (s.reg x).toNat = k.val → ∃ t, exec (.sknp x) s = .next t ∧
      (t.pc = if s.isPressed k = true then s.pc else s.pc + 2#16) ∧ WritesOnlyPc s t) ∧
    ((s.reg x).toNat > 0xF → exec (.sknp x) s = .refused (.keyIndexOutOfRange (s.reg x)))

/-- 45_timers_keys.md R202, R204, R205: the moves between V[x] and the timers; `playing` is not written. -/
def Obligations.TimerMovesCopyTheByte : Prop :=
  ∀ (e : Bool) (x : Reg) (s : State),
    (decode e (wordXK 0xF x 0x07) = .ok (.ldVxDt x) ∧
      ∃ t, exec (.ldVxDt x) s = .next t ∧ t.reg x = s.dt ∧ WritesOnlyRegs [x] s t) ∧
    (decode e (wordXK 0xF x 0x15) = .ok (.ldDtVx x) ∧
      ∃ t, exec (.ldDtVx x) s = .next t ∧ t.dt = s.reg x ∧ t = { s with dt := t.dt } ∧ SameBytes s t) ∧
    (decode e (wordXK 0xF x 0x18) = .ok (.ldStVx x) ∧
      ∃ t, exec (.ldStVx x) s = .next t ∧ t.st = s.reg x ∧ t = { s with st := t.st } ∧ SameBytes s t)

/-- 45_timers_keys.md R203: a pressed key is loaded, the least one where several are pressed, which is the spec's own choice
(92_eei_decisions.md D15; log entry 17); with none pressed pc goes back to the instruction itself. -/
def Obligations.WaitForKeyLoadsTheLeastOrRewinds : Prop :=
  ∀ (e : Bool) (x : Reg) (s : State),
    decode e (wordXK 0xF x 0x0A) = .ok (.ldVxK x) ∧
    (∀ k : Fin 16, s.isPressed k = true → (∀ j : Fin 16, j < k → s.isPressed j = false) →
      ∃ t, exec (.ldVxK x) s = .next t ∧ (t.reg x).toNat = k.val ∧ WritesOnlyRegs [x] s t) ∧
    ((∀ k : Fin 16, s.isPressed k = false) →
      ∃ t, exec (.ldVxK x) s = .next t ∧ t.pc = s.pc - 2#16 ∧ WritesOnlyPc s t)

/-! ## Rules about every instruction -/

/-- 10_state.md R22, R23: an instruction leaves every register unchanged that is not one of its destinations, VF included. -/
def Obligations.OnlyDestinationsAreWritten : Prop :=
  ∀ (i : Instr) (s t : State) (r : Reg), exec i s = .next t → r ∉ destinations i → t.reg r = s.reg r

/-- 20_memory.md R53, R59: only Fx33 and Fx55 change memory. -/
def Obligations.OnlyStoresChangeMemory : Prop :=
  ∀ (i : Instr) (s t : State), exec i s = .next t → stores i = false → t.mem = s.mem ∧ SameBytes s t

/-- 10_state.md R43, R33, R36, R37, R41: no instruction writes the sound flag, the cursor, the waveform, the accumulators,
status, the key latch or a parameter, nor the model's own fields but the counter of free values. -/
def Obligations.InstructionsLeaveTheControlState : Prop :=
  ∀ (i : Instr) (s t : State), exec i s = .next t →
    t = { s with v := t.v, i := t.i, pc := t.pc, stack := t.stack, dt := t.dt, st := t.st, fb := t.fb, mem := t.mem,
                 free := t.free }

/-- 10_state.md R24, R28 to R32, R34: I, the stack, the timers and the frame buffer change only by the instructions that
the spec names for each. -/
def Obligations.EachResourceHasItsWriters : Prop :=
  ∀ (i : Instr) (s t : State), exec i s = .next t →
    (t.i ≠ s.i → (∃ nnn, i = .ldI nnn) ∨ ∃ x, i = .addIVx x ∨ i = .ldFVx x ∨ i = .ldMemVx x ∨ i = .ldVxMem x) ∧
    (t.stack ≠ s.stack → i = .ret ∨ ∃ nnn, i = .call nnn) ∧
    (t.dt ≠ s.dt → ∃ x, i = .ldDtVx x) ∧
    (t.st ≠ s.st → ∃ x, i = .ldStVx x) ∧
    (t.fb ≠ s.fb → i = .cls ∨ ∃ x y n, i = .drw x y n)

/-! ## The scheduler, the timers and the host ports -/

/-- 60_exceptions.md R243: the timers count down to 0 and no further, `playing` follows ST, nothing else of the machine
changes (the held values are the model's own, log entry 8). -/
def Obligations.TimerTickCountsDown : Prop :=
  ∀ s : State,
    (timerTick s).dt.toNat = s.dt.toNat - 1 ∧ (timerTick s).st.toNat = s.st.toNat - 1 ∧
    ((timerTick s).playing = true ↔ s.st.toNat > 0) ∧
    timerTick s = { s with dt := (timerTick s).dt, st := (timerTick s).st, playing := (timerTick s).playing,
                           heldCur := (timerTick s).heldCur }

/-- 60_exceptions.md R234, R242: where no host move lands, a due timer tick runs before a due CPU tick (which host moves let a
tick run is the model's own, log entry 6). -/
def Obligations.TimerTicksRunFirst : Prop :=
  ∀ (s : State) (rest : List HostMove), s.status = .running → pendingAfterTick s.pending = some rest →
    s.params.timerPeriod ≤ s.accTimer →
    step s = .next { timerTick s with accTimer := s.accTimer - s.params.timerPeriod, pending := rest }

/-- 60_exceptions.md R242: the step-by-step machine does what iteration(Δ) does. From a drained machine whose host delivers
Δ, the steps are the delivery, every whole timer period, every whole CPU period. -/
def Obligations.IterationIsItsSteps : Prop :=
  ∀ (s : State) (delta : Nat), s.params.legal → s.status = .running → s.pending = [.elapsed delta] →
    s.accTimer < s.params.timerPeriod → s.accCpu < s.params.cpuPeriod →
    core.run (1 + (s.accTimer + delta) / s.params.timerPeriod + (s.accCpu + delta) / s.params.cpuPeriod) s =
      iteration delta { s with pending := [] }

/-- 60_exceptions.md R246: t seconds of elapsed time, however delivered, give ⌊60·t⌋ timer ticks and ⌊P_CPU_HZ·t⌋ CPU
ticks. Seconds are model units over units per second (log entry 5). -/
def Obligations.TickCountsDependOnTotalTime : Prop :=
  ∀ (s u : State) (deltas : List Nat) (timers cpus : Nat), s.params.legal → s.accTimer = 0 → s.accCpu = 0 →
    s.pending = [] → iterateRunning deltas s = some (timers, cpus, u) →
    timers = 60 * deltas.sum / s.params.unitsPerSecond ∧ cpus = s.params.cpuHz * deltas.sum / s.params.unitsPerSecond

/-- 60_exceptions.md R250, R255, R257, R260; 20_memory.md R68: a key event lands between two ticks and writes that key alone;
a pull there is one step of its own, the operation `pull`; a quit ends the run and writes status alone; elapsed time begins
an iteration once both accumulators are drained. The list of pending moves is the model's own (log entry 6). -/
def Obligations.HostEventsLandBetweenTicks : Prop :=
  ∀ (s : State) (rest : List HostMove), s.status = .running →
    (∀ (k : Fin 16) (p : Bool), s.pending = .setKey k p :: rest → ∃ t, step s = .next t ∧
      t.isPressed k = p ∧ (∀ j, j ≠ k → t.isPressed j = s.isPressed j) ∧
      t = { s with keys := t.keys, pending := rest }) ∧
    (s.pending = .pull :: rest → step s = .next (pull { s with pending := rest })) ∧
    (s.pending = .quit :: rest → step s = .next { s with status := .quit, pending := rest }) ∧
    (∀ delta, s.pending = .elapsed delta :: rest → s.accTimer < s.params.timerPeriod → s.accCpu < s.params.cpuPeriod →
      step s = .next (deliver delta { s with pending := rest }))

/-- 60_exceptions.md R255: while playing a pull answers the sample at the cursor and moves it on, wrapping at N; otherwise it
answers silence and the cursor holds. The answer stands in `lastSample` (log entry 16). -/
def Obligations.PullAnswersSampleOrSilence : Prop :=
  ∀ s : State, s.cursor < s.wave.length →
    (readPlaying s = true → (pull s).lastSample = s.wave.getD s.cursor 0 ∧
      (pull s).cursor = (if s.cursor + 1 = s.wave.length then 0 else s.cursor + 1)) ∧
    (readPlaying s = false → (pull s).lastSample = 0 ∧ (pull s).cursor = s.cursor) ∧
    pull s = { s with lastSample := (pull s).lastSample, cursor := (pull s).cursor, free := s.free + 1 }

/-- 60_exceptions.md R256: the reading of `playing` is a value held since the start of the iteration before the current one.
The record of held values (the model's own, log entry 8): elapsed time begins an iteration, moves the record on by one and
starts the new one with the present value; a timer tick adds the value it writes. A reading is a value recorded; it is the
present value wherever no other was recorded. -/
def Obligations.StaleReadsAreBounded : Prop :=
  ∀ s : State,
    (∀ delta, deliver delta s =
      { s with accTimer := s.accTimer + delta, accCpu := s.accCpu + delta, heldPrev := s.heldCur,
               heldCur := { low := !s.playing, high := s.playing } }) ∧
    ((timerTick s).heldPrev = s.heldPrev ∧
      ((timerTick s).heldCur.high = true ↔ s.heldCur.high = true ∨ (timerTick s).playing = true) ∧
      ((timerTick s).heldCur.low = true ↔ s.heldCur.low = true ∨ (timerTick s).playing = false)) ∧
    ((if s.playing then s.heldCur.high = true else s.heldCur.low = true) →
      (readPlaying s = true → s.heldPrev.high = true ∨ s.heldCur.high = true) ∧
      (readPlaying s = false → s.heldPrev.low = true ∨ s.heldCur.low = true) ∧
      (s.heldPrev = Held.only s.playing → s.heldCur = Held.only s.playing → readPlaying s = s.playing))

/-- 60_exceptions.md R253: N = ⌊rate·duration⌋ samples, at least 1; sample k is +amplitude where frac(k·tone/rate) < 1/2 and
−amplitude elsewhere, over the rationals. -/
def Obligations.WaveformIsASquareWave : Prop :=
  ∀ w : WaveParams, w.legal →
    (synthWave w).length = ⌊(w.sampleRate : ℚ) * (w.durNum / w.durDen)⌋₊ ∧ 1 ≤ (synthWave w).length ∧
    ∀ k, k < (synthWave w).length →
      (synthWave w).getD k 0 =
        if Int.fract ((k : ℚ) * (w.toneNum / w.toneDen) / w.sampleRate) < 1 / 2 then (w.amplitude : Int)
        else -(w.amplitude : Int)
end

