-- ==== Sys2Proof/Laws/Decode.lean ====
section
/-! SUPPORT. The fields of a word and the formats that assemble it are inverse to each other (30_encoding.md R71, R72). -/

namespace Sys2Proof

theorem getLsbD_formatA (t : BitVec 4) (nnn : Addr12) (k : Nat) :
    (formatA t nnn).getLsbD k = if k < 12 then nnn.getLsbD k else t.getLsbD (k - 12) :=
  BitVec.getLsbD_append

theorem getLsbD_formatXK (t : BitVec 4) (x : Reg) (kk : Byte) (k : Nat) :
    (formatXK t x kk).getLsbD k =
      if k < 12 then (if k < 8 then kk.getLsbD k else x.getLsbD (k - 8)) else t.getLsbD (k - 12) := by
  have h : (formatXK t x kk).getLsbD k = if k < 12 then (x ++ kk).getLsbD k else t.getLsbD (k - 12) :=
    BitVec.getLsbD_append
  rw [h, BitVec.getLsbD_append]

theorem getLsbD_formatXY (t : BitVec 4) (x y : Reg) (n : BitVec 4) (k : Nat) :
    (formatXY t x y n).getLsbD k =
      if k < 12 then (if k < 8 then (if k < 4 then n.getLsbD k else y.getLsbD (k - 4)) else x.getLsbD (k - 8))
      else t.getLsbD (k - 12) := by
  have h : (formatXY t x y n).getLsbD k = if k < 12 then (x ++ (y ++ n)).getLsbD k else t.getLsbD (k - 12) :=
    BitVec.getLsbD_append
  have h' : (x ++ (y ++ n)).getLsbD k = if k < 8 then (y ++ n).getLsbD k else x.getLsbD (k - 8) :=
    BitVec.getLsbD_append
  rw [h, h', BitVec.getLsbD_append]

/-! ## The fields of an assembled word -/

theorem fields_formatA (t : BitVec 4) (nnn : Addr12) :
    (formatA t nnn).extractLsb' 12 4 = t ∧ fieldNnn (formatA t nnn) = nnn := by
  refine ⟨?_, ?_⟩ <;> apply BitVec.eq_of_getLsbD_eq <;> intro k hk
  · simp [getLsbD_formatA, hk]
  · simp [fieldNnn, getLsbD_formatA, hk]

theorem fields_formatXK (t : BitVec 4) (x : Reg) (kk : Byte) :
    (formatXK t x kk).extractLsb' 12 4 = t ∧ fieldX (formatXK t x kk) = x ∧ fieldKk (formatXK t x kk) = kk := by
  refine ⟨?_, ?_, ?_⟩ <;> apply BitVec.eq_of_getLsbD_eq <;> intro k hk
  · simp [getLsbD_formatXK, hk]
  · have : 8 + k < 12 := by omega
    simp [fieldX, getLsbD_formatXK, hk, this]
  · have : k < 12 := by omega
    simp [fieldKk, getLsbD_formatXK, hk, this]

theorem fields_formatXY (t : BitVec 4) (x y : Reg) (n : BitVec 4) :
    (formatXY t x y n).extractLsb' 12 4 = t ∧ fieldX (formatXY t x y n) = x ∧ fieldY (formatXY t x y n) = y ∧
      fieldN (formatXY t x y n) = n := by
  refine ⟨?_, ?_, ?_, ?_⟩ <;> apply BitVec.eq_of_getLsbD_eq <;> intro k hk
  · simp [getLsbD_formatXY, hk]
  · have : 8 + k < 12 := by omega
    simp [fieldX, getLsbD_formatXY, hk, this]
  · have h1 : 4 + k < 12 := by omega
    have h2 : 4 + k < 8 := by omega
    simp [fieldY, getLsbD_formatXY, hk, h1, h2]
  · have h1 : k < 12 := by omega
    have h2 : k < 8 := by omega
    simp [fieldN, getLsbD_formatXY, hk, h1, h2]

/-! ## A word assembled from its fields -/

theorem formatA_fields (op : Word) : formatA (op.extractLsb' 12 4) (fieldNnn op) = op := by
  apply BitVec.eq_of_getLsbD_eq
  intro k hk
  rw [getLsbD_formatA]
  split
  · simp [fieldNnn]; omega
  · have h : 12 + (k - 12) = k := by omega
    have h' : k - 12 < 4 := by omega
    simp [h, h']

theorem formatXK_fields (op : Word) : formatXK (op.extractLsb' 12 4) (fieldX op) (fieldKk op) = op := by
  apply BitVec.eq_of_getLsbD_eq
  intro k hk
  rw [getLsbD_formatXK]
  split_ifs with h1 h2
  · simp [fieldKk]; omega
  · have h : 8 + (k - 8) = k := by omega
    have h' : k - 8 < 4 := by omega
    simp [fieldX, h, h']
  · have h : 12 + (k - 12) = k := by omega
    have h' : k - 12 < 4 := by omega
    simp [h, h']

theorem formatXY_fields (op : Word) :
    formatXY (op.extractLsb' 12 4) (fieldX op) (fieldY op) (fieldN op) = op := by
  apply BitVec.eq_of_getLsbD_eq
  intro k hk
  rw [getLsbD_formatXY]
  split_ifs with h1 h2 h3
  · simp [fieldN]; omega
  · have h : 4 + (k - 4) = k := by omega
    have h' : k - 4 < 4 := by omega
    simp [fieldY, h, h']
  · have h : 8 + (k - 8) = k := by omega
    have h' : k - 8 < 4 := by omega
    simp [fieldX, h, h']
  · have h : 12 + (k - 12) = k := by omega
    have h' : k - 12 < 4 := by omega
    simp [h, h']

/-! ## The fields as numbers -/

theorem toNat_topNibble (op : Word) : (op.extractLsb' 12 4).toNat = op.toNat / 4096 := by
  have := op.isLt
  simp [BitVec.extractLsb'_toNat, Nat.shiftRight_eq_div_pow]
  omega

theorem toNat_fieldN (op : Word) : (fieldN op).toNat = op.toNat % 16 := by
  simp [fieldN, BitVec.extractLsb'_toNat]

theorem toNat_fieldKk (op : Word) : (fieldKk op).toNat = op.toNat % 256 := by
  simp [fieldKk, BitVec.extractLsb'_toNat]

theorem toNat_formatA (t : BitVec 4) (nnn : Addr12) : (formatA t nnn).toNat = t.toNat * 4096 + nnn.toNat := by
  have := nnn.isLt
  rw [formatA, BitVec.toNat_append, ← Nat.shiftLeft_add_eq_or_of_lt this, Nat.shiftLeft_eq]

theorem toNat_formatXK (t : BitVec 4) (x : Reg) (kk : Byte) :
    (formatXK t x kk).toNat = t.toNat * 4096 + x.toNat * 256 + kk.toNat := by
  have h1 := kk.isLt
  have h2 := (x ++ kk).isLt
  rw [formatXK, BitVec.toNat_append, ← Nat.shiftLeft_add_eq_or_of_lt h2, BitVec.toNat_append,
    ← Nat.shiftLeft_add_eq_or_of_lt h1, Nat.shiftLeft_eq, Nat.shiftLeft_eq]
  omega

theorem toNat_formatXY (t : BitVec 4) (x y : Reg) (n : BitVec 4) :
    (formatXY t x y n).toNat = t.toNat * 4096 + x.toNat * 256 + y.toNat * 16 + n.toNat := by
  have h1 := n.isLt
  have h2 := (y ++ n).isLt
  have h3 := (x ++ (y ++ n)).isLt
  rw [formatXY, BitVec.toNat_append, ← Nat.shiftLeft_add_eq_or_of_lt h3, BitVec.toNat_append,
    ← Nat.shiftLeft_add_eq_or_of_lt h2, BitVec.toNat_append, ← Nat.shiftLeft_add_eq_or_of_lt h1,
    Nat.shiftLeft_eq, Nat.shiftLeft_eq, Nat.shiftLeft_eq]
  omega

end Sys2Proof
end

