-- ==== Sys2Proof/Laws/State.lean ====
section
/-! SUPPORT. One lemma per field per state update, true by definition, so that no proof unfolds a record update. -/

namespace Sys2Proof.Machine

/-! ## setReg -/

@[simp] theorem State.setReg_v (s : State) (x : Reg) (b : Byte) : (s.setReg x b).v = s.v.set x.toNat b x.isLt := rfl
@[simp] theorem State.setReg_i (s : State) (x : Reg) (b : Byte) : (s.setReg x b).i = s.i := rfl
@[simp] theorem State.setReg_pc (s : State) (x : Reg) (b : Byte) : (s.setReg x b).pc = s.pc := rfl
@[simp] theorem State.setReg_stack (s : State) (x : Reg) (b : Byte) : (s.setReg x b).stack = s.stack := rfl
@[simp] theorem State.setReg_dt (s : State) (x : Reg) (b : Byte) : (s.setReg x b).dt = s.dt := rfl
@[simp] theorem State.setReg_st (s : State) (x : Reg) (b : Byte) : (s.setReg x b).st = s.st := rfl
@[simp] theorem State.setReg_playing (s : State) (x : Reg) (b : Byte) : (s.setReg x b).playing = s.playing := rfl
@[simp] theorem State.setReg_fb (s : State) (x : Reg) (b : Byte) : (s.setReg x b).fb = s.fb := rfl
@[simp] theorem State.setReg_keys (s : State) (x : Reg) (b : Byte) : (s.setReg x b).keys = s.keys := rfl
@[simp] theorem State.setReg_mem (s : State) (x : Reg) (b : Byte) : (s.setReg x b).mem = s.mem := rfl
@[simp] theorem State.setReg_wave (s : State) (x : Reg) (b : Byte) : (s.setReg x b).wave = s.wave := rfl
@[simp] theorem State.setReg_cursor (s : State) (x : Reg) (b : Byte) : (s.setReg x b).cursor = s.cursor := rfl
@[simp] theorem State.setReg_accTimer (s : State) (x : Reg) (b : Byte) : (s.setReg x b).accTimer = s.accTimer := rfl
@[simp] theorem State.setReg_accCpu (s : State) (x : Reg) (b : Byte) : (s.setReg x b).accCpu = s.accCpu := rfl
@[simp] theorem State.setReg_status (s : State) (x : Reg) (b : Byte) : (s.setReg x b).status = s.status := rfl
@[simp] theorem State.setReg_params (s : State) (x : Reg) (b : Byte) : (s.setReg x b).params = s.params := rfl
@[simp] theorem State.setReg_pending (s : State) (x : Reg) (b : Byte) : (s.setReg x b).pending = s.pending := rfl
@[simp] theorem State.setReg_heldPrev (s : State) (x : Reg) (b : Byte) : (s.setReg x b).heldPrev = s.heldPrev := rfl
@[simp] theorem State.setReg_heldCur (s : State) (x : Reg) (b : Byte) : (s.setReg x b).heldCur = s.heldCur := rfl
@[simp] theorem State.setReg_lastSample (s : State) (x : Reg) (b : Byte) : (s.setReg x b).lastSample = s.lastSample := rfl
@[simp] theorem State.setReg_free (s : State) (x : Reg) (b : Byte) : (s.setReg x b).free = s.free := rfl

/-! ## setI -/

@[simp] theorem State.setI_v (s : State) (w : Word) : (s.setI w).v = s.v := rfl
@[simp] theorem State.setI_i (s : State) (w : Word) : (s.setI w).i = w := rfl
@[simp] theorem State.setI_pc (s : State) (w : Word) : (s.setI w).pc = s.pc := rfl
@[simp] theorem State.setI_stack (s : State) (w : Word) : (s.setI w).stack = s.stack := rfl
@[simp] theorem State.setI_dt (s : State) (w : Word) : (s.setI w).dt = s.dt := rfl
@[simp] theorem State.setI_st (s : State) (w : Word) : (s.setI w).st = s.st := rfl
@[simp] theorem State.setI_playing (s : State) (w : Word) : (s.setI w).playing = s.playing := rfl
@[simp] theorem State.setI_fb (s : State) (w : Word) : (s.setI w).fb = s.fb := rfl
@[simp] theorem State.setI_keys (s : State) (w : Word) : (s.setI w).keys = s.keys := rfl
@[simp] theorem State.setI_mem (s : State) (w : Word) : (s.setI w).mem = s.mem := rfl
@[simp] theorem State.setI_wave (s : State) (w : Word) : (s.setI w).wave = s.wave := rfl
@[simp] theorem State.setI_cursor (s : State) (w : Word) : (s.setI w).cursor = s.cursor := rfl
@[simp] theorem State.setI_accTimer (s : State) (w : Word) : (s.setI w).accTimer = s.accTimer := rfl
@[simp] theorem State.setI_accCpu (s : State) (w : Word) : (s.setI w).accCpu = s.accCpu := rfl
@[simp] theorem State.setI_status (s : State) (w : Word) : (s.setI w).status = s.status := rfl
@[simp] theorem State.setI_params (s : State) (w : Word) : (s.setI w).params = s.params := rfl
@[simp] theorem State.setI_pending (s : State) (w : Word) : (s.setI w).pending = s.pending := rfl
@[simp] theorem State.setI_heldPrev (s : State) (w : Word) : (s.setI w).heldPrev = s.heldPrev := rfl
@[simp] theorem State.setI_heldCur (s : State) (w : Word) : (s.setI w).heldCur = s.heldCur := rfl
@[simp] theorem State.setI_lastSample (s : State) (w : Word) : (s.setI w).lastSample = s.lastSample := rfl
@[simp] theorem State.setI_free (s : State) (w : Word) : (s.setI w).free = s.free := rfl

/-! ## setPc -/

@[simp] theorem State.setPc_v (s : State) (w : Word) : (s.setPc w).v = s.v := rfl
@[simp] theorem State.setPc_i (s : State) (w : Word) : (s.setPc w).i = s.i := rfl
@[simp] theorem State.setPc_pc (s : State) (w : Word) : (s.setPc w).pc = w := rfl
@[simp] theorem State.setPc_stack (s : State) (w : Word) : (s.setPc w).stack = s.stack := rfl
@[simp] theorem State.setPc_dt (s : State) (w : Word) : (s.setPc w).dt = s.dt := rfl
@[simp] theorem State.setPc_st (s : State) (w : Word) : (s.setPc w).st = s.st := rfl
@[simp] theorem State.setPc_playing (s : State) (w : Word) : (s.setPc w).playing = s.playing := rfl
@[simp] theorem State.setPc_fb (s : State) (w : Word) : (s.setPc w).fb = s.fb := rfl
@[simp] theorem State.setPc_keys (s : State) (w : Word) : (s.setPc w).keys = s.keys := rfl
@[simp] theorem State.setPc_mem (s : State) (w : Word) : (s.setPc w).mem = s.mem := rfl
@[simp] theorem State.setPc_wave (s : State) (w : Word) : (s.setPc w).wave = s.wave := rfl
@[simp] theorem State.setPc_cursor (s : State) (w : Word) : (s.setPc w).cursor = s.cursor := rfl
@[simp] theorem State.setPc_accTimer (s : State) (w : Word) : (s.setPc w).accTimer = s.accTimer := rfl
@[simp] theorem State.setPc_accCpu (s : State) (w : Word) : (s.setPc w).accCpu = s.accCpu := rfl
@[simp] theorem State.setPc_status (s : State) (w : Word) : (s.setPc w).status = s.status := rfl
@[simp] theorem State.setPc_params (s : State) (w : Word) : (s.setPc w).params = s.params := rfl
@[simp] theorem State.setPc_pending (s : State) (w : Word) : (s.setPc w).pending = s.pending := rfl
@[simp] theorem State.setPc_heldPrev (s : State) (w : Word) : (s.setPc w).heldPrev = s.heldPrev := rfl
@[simp] theorem State.setPc_heldCur (s : State) (w : Word) : (s.setPc w).heldCur = s.heldCur := rfl
@[simp] theorem State.setPc_lastSample (s : State) (w : Word) : (s.setPc w).lastSample = s.lastSample := rfl
@[simp] theorem State.setPc_free (s : State) (w : Word) : (s.setPc w).free = s.free := rfl

/-! ## poke -/

@[simp] theorem State.poke_v (s : State) (a : Nat) (b : Byte) : (s.poke a b).v = s.v := rfl
@[simp] theorem State.poke_i (s : State) (a : Nat) (b : Byte) : (s.poke a b).i = s.i := rfl
@[simp] theorem State.poke_pc (s : State) (a : Nat) (b : Byte) : (s.poke a b).pc = s.pc := rfl
@[simp] theorem State.poke_stack (s : State) (a : Nat) (b : Byte) : (s.poke a b).stack = s.stack := rfl
@[simp] theorem State.poke_dt (s : State) (a : Nat) (b : Byte) : (s.poke a b).dt = s.dt := rfl
@[simp] theorem State.poke_st (s : State) (a : Nat) (b : Byte) : (s.poke a b).st = s.st := rfl
@[simp] theorem State.poke_playing (s : State) (a : Nat) (b : Byte) : (s.poke a b).playing = s.playing := rfl
@[simp] theorem State.poke_fb (s : State) (a : Nat) (b : Byte) : (s.poke a b).fb = s.fb := rfl
@[simp] theorem State.poke_keys (s : State) (a : Nat) (b : Byte) : (s.poke a b).keys = s.keys := rfl
@[simp] theorem State.poke_mem (s : State) (a : Nat) (b : Byte) : (s.poke a b).mem = Memory.put s.params s.mem a b := rfl
@[simp] theorem State.poke_wave (s : State) (a : Nat) (b : Byte) : (s.poke a b).wave = s.wave := rfl
@[simp] theorem State.poke_cursor (s : State) (a : Nat) (b : Byte) : (s.poke a b).cursor = s.cursor := rfl
@[simp] theorem State.poke_accTimer (s : State) (a : Nat) (b : Byte) : (s.poke a b).accTimer = s.accTimer := rfl
@[simp] theorem State.poke_accCpu (s : State) (a : Nat) (b : Byte) : (s.poke a b).accCpu = s.accCpu := rfl
@[simp] theorem State.poke_status (s : State) (a : Nat) (b : Byte) : (s.poke a b).status = s.status := rfl
@[simp] theorem State.poke_params (s : State) (a : Nat) (b : Byte) : (s.poke a b).params = s.params := rfl
@[simp] theorem State.poke_pending (s : State) (a : Nat) (b : Byte) : (s.poke a b).pending = s.pending := rfl
@[simp] theorem State.poke_heldPrev (s : State) (a : Nat) (b : Byte) : (s.poke a b).heldPrev = s.heldPrev := rfl
@[simp] theorem State.poke_heldCur (s : State) (a : Nat) (b : Byte) : (s.poke a b).heldCur = s.heldCur := rfl
@[simp] theorem State.poke_lastSample (s : State) (a : Nat) (b : Byte) : (s.poke a b).lastSample = s.lastSample := rfl
@[simp] theorem State.poke_free (s : State) (a : Nat) (b : Byte) : (s.poke a b).free = s.free := rfl

/-! ## finish -/

@[simp] theorem State.finish_v (s : State) (op a : Word) : (s.finish op a).v = s.v := rfl
@[simp] theorem State.finish_i (s : State) (op a : Word) : (s.finish op a).i = s.i := rfl
@[simp] theorem State.finish_pc (s : State) (op a : Word) : (s.finish op a).pc = s.pc := rfl
@[simp] theorem State.finish_stack (s : State) (op a : Word) : (s.finish op a).stack = s.stack := rfl
@[simp] theorem State.finish_dt (s : State) (op a : Word) : (s.finish op a).dt = s.dt := rfl
@[simp] theorem State.finish_st (s : State) (op a : Word) : (s.finish op a).st = s.st := rfl
@[simp] theorem State.finish_playing (s : State) (op a : Word) : (s.finish op a).playing = s.playing := rfl
@[simp] theorem State.finish_fb (s : State) (op a : Word) : (s.finish op a).fb = s.fb := rfl
@[simp] theorem State.finish_keys (s : State) (op a : Word) : (s.finish op a).keys = s.keys := rfl
@[simp] theorem State.finish_mem (s : State) (op a : Word) : (s.finish op a).mem = s.mem := rfl
@[simp] theorem State.finish_wave (s : State) (op a : Word) : (s.finish op a).wave = s.wave := rfl
@[simp] theorem State.finish_cursor (s : State) (op a : Word) : (s.finish op a).cursor = s.cursor := rfl
@[simp] theorem State.finish_accTimer (s : State) (op a : Word) : (s.finish op a).accTimer = s.accTimer := rfl
@[simp] theorem State.finish_accCpu (s : State) (op a : Word) : (s.finish op a).accCpu = s.accCpu := rfl
@[simp] theorem State.finish_status (s : State) (op a : Word) : (s.finish op a).status = .finished op a := rfl
@[simp] theorem State.finish_params (s : State) (op a : Word) : (s.finish op a).params = s.params := rfl
@[simp] theorem State.finish_pending (s : State) (op a : Word) : (s.finish op a).pending = s.pending := rfl
@[simp] theorem State.finish_heldPrev (s : State) (op a : Word) : (s.finish op a).heldPrev = s.heldPrev := rfl
@[simp] theorem State.finish_heldCur (s : State) (op a : Word) : (s.finish op a).heldCur = s.heldCur := rfl
@[simp] theorem State.finish_lastSample (s : State) (op a : Word) : (s.finish op a).lastSample = s.lastSample := rfl
@[simp] theorem State.finish_free (s : State) (op a : Word) : (s.finish op a).free = s.free := rfl

/-! ## refuse -/

@[simp] theorem State.refuse_v (s : State) (r : RefusedReason) : (s.refuse r).v = s.v := rfl
@[simp] theorem State.refuse_i (s : State) (r : RefusedReason) : (s.refuse r).i = s.i := rfl
@[simp] theorem State.refuse_pc (s : State) (r : RefusedReason) : (s.refuse r).pc = s.pc := rfl
@[simp] theorem State.refuse_stack (s : State) (r : RefusedReason) : (s.refuse r).stack = s.stack := rfl
@[simp] theorem State.refuse_dt (s : State) (r : RefusedReason) : (s.refuse r).dt = s.dt := rfl
@[simp] theorem State.refuse_st (s : State) (r : RefusedReason) : (s.refuse r).st = s.st := rfl
@[simp] theorem State.refuse_playing (s : State) (r : RefusedReason) : (s.refuse r).playing = s.playing := rfl
@[simp] theorem State.refuse_fb (s : State) (r : RefusedReason) : (s.refuse r).fb = s.fb := rfl
@[simp] theorem State.refuse_keys (s : State) (r : RefusedReason) : (s.refuse r).keys = s.keys := rfl
@[simp] theorem State.refuse_mem (s : State) (r : RefusedReason) : (s.refuse r).mem = s.mem := rfl
@[simp] theorem State.refuse_wave (s : State) (r : RefusedReason) : (s.refuse r).wave = s.wave := rfl
@[simp] theorem State.refuse_cursor (s : State) (r : RefusedReason) : (s.refuse r).cursor = s.cursor := rfl
@[simp] theorem State.refuse_accTimer (s : State) (r : RefusedReason) : (s.refuse r).accTimer = s.accTimer := rfl
@[simp] theorem State.refuse_accCpu (s : State) (r : RefusedReason) : (s.refuse r).accCpu = s.accCpu := rfl
@[simp] theorem State.refuse_status (s : State) (r : RefusedReason) : (s.refuse r).status = .refused r := rfl
@[simp] theorem State.refuse_params (s : State) (r : RefusedReason) : (s.refuse r).params = s.params := rfl
@[simp] theorem State.refuse_pending (s : State) (r : RefusedReason) : (s.refuse r).pending = s.pending := rfl
@[simp] theorem State.refuse_heldPrev (s : State) (r : RefusedReason) : (s.refuse r).heldPrev = s.heldPrev := rfl
@[simp] theorem State.refuse_heldCur (s : State) (r : RefusedReason) : (s.refuse r).heldCur = s.heldCur := rfl
@[simp] theorem State.refuse_lastSample (s : State) (r : RefusedReason) : (s.refuse r).lastSample = s.lastSample := rfl
@[simp] theorem State.refuse_free (s : State) (r : RefusedReason) : (s.refuse r).free = s.free := rfl

/-! ## drainCpu -/

@[simp] theorem State.drainCpu_v (s : State) : (s.drainCpu).v = s.v := rfl
@[simp] theorem State.drainCpu_i (s : State) : (s.drainCpu).i = s.i := rfl
@[simp] theorem State.drainCpu_pc (s : State) : (s.drainCpu).pc = s.pc := rfl
@[simp] theorem State.drainCpu_stack (s : State) : (s.drainCpu).stack = s.stack := rfl
@[simp] theorem State.drainCpu_dt (s : State) : (s.drainCpu).dt = s.dt := rfl
@[simp] theorem State.drainCpu_st (s : State) : (s.drainCpu).st = s.st := rfl
@[simp] theorem State.drainCpu_playing (s : State) : (s.drainCpu).playing = s.playing := rfl
@[simp] theorem State.drainCpu_fb (s : State) : (s.drainCpu).fb = s.fb := rfl
@[simp] theorem State.drainCpu_keys (s : State) : (s.drainCpu).keys = s.keys := rfl
@[simp] theorem State.drainCpu_mem (s : State) : (s.drainCpu).mem = s.mem := rfl
@[simp] theorem State.drainCpu_wave (s : State) : (s.drainCpu).wave = s.wave := rfl
@[simp] theorem State.drainCpu_cursor (s : State) : (s.drainCpu).cursor = s.cursor := rfl
@[simp] theorem State.drainCpu_accTimer (s : State) : (s.drainCpu).accTimer = s.accTimer := rfl
@[simp] theorem State.drainCpu_accCpu (s : State) : (s.drainCpu).accCpu = s.accCpu - s.params.cpuPeriod := rfl
@[simp] theorem State.drainCpu_status (s : State) : (s.drainCpu).status = s.status := rfl
@[simp] theorem State.drainCpu_params (s : State) : (s.drainCpu).params = s.params := rfl
@[simp] theorem State.drainCpu_pending (s : State) : (s.drainCpu).pending = s.pending := rfl
@[simp] theorem State.drainCpu_heldPrev (s : State) : (s.drainCpu).heldPrev = s.heldPrev := rfl
@[simp] theorem State.drainCpu_heldCur (s : State) : (s.drainCpu).heldCur = s.heldCur := rfl
@[simp] theorem State.drainCpu_lastSample (s : State) : (s.drainCpu).lastSample = s.lastSample := rfl
@[simp] theorem State.drainCpu_free (s : State) : (s.drainCpu).free = s.free := rfl

/-! ## advanced -/

@[simp] theorem State.advanced_v (s : State) : (s.advanced).v = s.v := rfl
@[simp] theorem State.advanced_i (s : State) : (s.advanced).i = s.i := rfl
@[simp] theorem State.advanced_pc (s : State) : (s.advanced).pc = s.pc + 2#16 := rfl
@[simp] theorem State.advanced_stack (s : State) : (s.advanced).stack = s.stack := rfl
@[simp] theorem State.advanced_dt (s : State) : (s.advanced).dt = s.dt := rfl
@[simp] theorem State.advanced_st (s : State) : (s.advanced).st = s.st := rfl
@[simp] theorem State.advanced_playing (s : State) : (s.advanced).playing = s.playing := rfl
@[simp] theorem State.advanced_fb (s : State) : (s.advanced).fb = s.fb := rfl
@[simp] theorem State.advanced_keys (s : State) : (s.advanced).keys = s.keys := rfl
@[simp] theorem State.advanced_mem (s : State) : (s.advanced).mem = s.mem := rfl
@[simp] theorem State.advanced_wave (s : State) : (s.advanced).wave = s.wave := rfl
@[simp] theorem State.advanced_cursor (s : State) : (s.advanced).cursor = s.cursor := rfl
@[simp] theorem State.advanced_accTimer (s : State) : (s.advanced).accTimer = s.accTimer := rfl
@[simp] theorem State.advanced_accCpu (s : State) : (s.advanced).accCpu = s.accCpu := rfl
@[simp] theorem State.advanced_status (s : State) : (s.advanced).status = s.status := rfl
@[simp] theorem State.advanced_params (s : State) : (s.advanced).params = s.params := rfl
@[simp] theorem State.advanced_pending (s : State) : (s.advanced).pending = s.pending := rfl
@[simp] theorem State.advanced_heldPrev (s : State) : (s.advanced).heldPrev = s.heldPrev := rfl
@[simp] theorem State.advanced_heldCur (s : State) : (s.advanced).heldCur = s.heldCur := rfl
@[simp] theorem State.advanced_lastSample (s : State) : (s.advanced).lastSample = s.lastSample := rfl
@[simp] theorem State.advanced_free (s : State) : (s.advanced).free = s.free := rfl

/-! ## raise -/

@[simp] theorem State.raise_v (s : State) (f : Fault) : (s.raise f).v = (Config.wreckage s.free).v := rfl
@[simp] theorem State.raise_i (s : State) (f : Fault) : (s.raise f).i = (Config.wreckage s.free).i := rfl
@[simp] theorem State.raise_pc (s : State) (f : Fault) : (s.raise f).pc = (Config.wreckage s.free).pc := rfl
@[simp] theorem State.raise_stack (s : State) (f : Fault) : (s.raise f).stack = (Config.wreckage s.free).stack := rfl
@[simp] theorem State.raise_dt (s : State) (f : Fault) : (s.raise f).dt = (Config.wreckage s.free).dt := rfl
@[simp] theorem State.raise_st (s : State) (f : Fault) : (s.raise f).st = (Config.wreckage s.free).st := rfl
@[simp] theorem State.raise_playing (s : State) (f : Fault) : (s.raise f).playing = (Config.wreckage s.free).playing := rfl
@[simp] theorem State.raise_fb (s : State) (f : Fault) : (s.raise f).fb = (Config.wreckage s.free).fb := rfl
@[simp] theorem State.raise_keys (s : State) (f : Fault) : (s.raise f).keys = (Config.wreckage s.free).keys := rfl
@[simp] theorem State.raise_mem (s : State) (f : Fault) : (s.raise f).mem = Memory.ofCells s.params (Config.wreckage s.free).cells := rfl
@[simp] theorem State.raise_wave (s : State) (f : Fault) : (s.raise f).wave = (Config.wreckage s.free).wave := rfl
@[simp] theorem State.raise_cursor (s : State) (f : Fault) : (s.raise f).cursor = (Config.wreckage s.free).cursor := rfl
@[simp] theorem State.raise_accTimer (s : State) (f : Fault) : (s.raise f).accTimer = (Config.wreckage s.free).accTimer := rfl
@[simp] theorem State.raise_accCpu (s : State) (f : Fault) : (s.raise f).accCpu = (Config.wreckage s.free).accCpu := rfl
@[simp] theorem State.raise_status (s : State) (f : Fault) : (s.raise f).status = .fatal f := rfl
@[simp] theorem State.raise_params (s : State) (f : Fault) : (s.raise f).params = s.params := rfl
@[simp] theorem State.raise_pending (s : State) (f : Fault) : (s.raise f).pending = s.pending := rfl
@[simp] theorem State.raise_heldPrev (s : State) (f : Fault) : (s.raise f).heldPrev = s.heldPrev := rfl
@[simp] theorem State.raise_heldCur (s : State) (f : Fault) : (s.raise f).heldCur = s.heldCur := rfl
@[simp] theorem State.raise_lastSample (s : State) (f : Fault) : (s.raise f).lastSample = s.lastSample := rfl
@[simp] theorem State.raise_free (s : State) (f : Fault) : (s.raise f).free = s.free + 1 := rfl

/-! ## skipIf and popLetRun -/

/-- A conditional skip writes pc only. -/
theorem State.skipIf_eq (s : State) (c : Bool) :
    s.skipIf c = s.setPc (if c then s.pc + 2#16 else s.pc) := by
  cases c <;> rfl

/-- Using up a silent boundary changes the pending moves only. -/
theorem State.popLetRun_eq (s : State) : s.popLetRun = { s with pending := s.popLetRun.pending } := by
  unfold State.popLetRun
  split <;> rfl

/-- With no host move pending there is no boundary to use up. -/
@[simp] theorem State.popLetRun_nil (s : State) (h : s.pending = []) : s.popLetRun = s := by
  simp [State.popLetRun, h]

/-- A state is determined by its fields; this restates it with nothing changed. -/
theorem State.poke_eq (s : State) (a : Nat) (b : Byte) :
    s.poke a b = { s with mem := (s.poke a b).mem } := rfl

end Sys2Proof.Machine
end

