-- ==== Sys2Proof/Laws/Registers.lean ====
section
/-! SUPPORT. The laws of the general registers, the flag writes, the call stack and the key latch. -/

namespace Sys2Proof.Machine

/-! ## Registers -/

/-- A register write changes that register alone. -/
@[simp] theorem State.reg_setReg (s : State) (x r : Reg) (b : Byte) :
    (s.setReg x b).reg r = if r = x then b else s.reg r := by
  simp only [State.reg, State.setReg, Vector.getElem_set, BitVec.toNat_inj, eq_comm (a := x)]

@[simp] theorem State.reg_setI (s : State) (w : Word) (r : Reg) : (s.setI w).reg r = s.reg r := rfl
@[simp] theorem State.reg_setPc (s : State) (w : Word) (r : Reg) : (s.setPc w).reg r = s.reg r := rfl
@[simp] theorem State.reg_poke (s : State) (a : Nat) (b : Byte) (r : Reg) : (s.poke a b).reg r = s.reg r := rfl
@[simp] theorem State.reg_advanced (s : State) (r : Reg) : s.advanced.reg r = s.reg r := rfl

@[simp] theorem State.peek_setReg (s : State) (x : Reg) (b : Byte) (a : Nat) : (s.setReg x b).peek a = s.peek a := rfl
@[simp] theorem State.peek_setI (s : State) (w : Word) (a : Nat) : (s.setI w).peek a = s.peek a := rfl
@[simp] theorem State.peek_setPc (s : State) (w : Word) (a : Nat) : (s.setPc w).peek a = s.peek a := rfl
@[simp] theorem State.peek_advanced (s : State) (a : Nat) : s.advanced.peek a = s.peek a := rfl

/-- A register write changes the register file only. -/
theorem State.setReg_eq (s : State) (x : Reg) (b : Byte) :
    s.setReg x b = { s with v := (s.setReg x b).v } := rfl

/-- The register file after successive registers from `k` on are filled. -/
theorem getElem_fillRegs (v : Vector Byte 16) (k : Nat) (bs : List Byte) (j : Nat) (hj : j < 16) :
    (fillRegs v k bs)[j] = if k ≤ j ∧ j < k + bs.length then bs.getD (j - k) 0#8 else v[j] := by
  induction bs generalizing v k with
  | nil =>
    rw [if_neg (by rw [List.length_nil]; omega)]
    rfl
  | cons b bs ih =>
    rw [fillRegs, ih, Vector.getElem_setIfInBounds]
    by_cases hjk : k = j
    · subst hjk; simp
    · by_cases h : k + 1 ≤ j ∧ j < k + 1 + bs.length
      · have e : j - k = (j - (k + 1)) + 1 := by omega
        rw [if_pos h, if_pos (by rw [List.length_cons]; omega), e, List.getD_cons_succ]
      · rw [if_neg h, if_neg hjk, if_neg (by rw [List.length_cons]; omega)]

/-- V[0]..V[x] has x + 1 bytes. -/
@[simp] theorem State.length_regsUpTo (s : State) (x : Reg) : (s.regsUpTo x).length = x.toNat + 1 := by
  have := x.isLt
  simp [State.regsUpTo]
  omega

/-- The k-th byte of V[0]..V[x] is V[k]. -/
theorem State.getD_regsUpTo (s : State) (x r : Reg) (h : r.toNat ≤ x.toNat) :
    (s.regsUpTo x).getD r.toNat 0#8 = s.reg r := by
  have := x.isLt
  have hr : r.toNat < (s.regsUpTo x).length := by simp; omega
  rw [List.getD_eq_getElem _ _ hr]
  simp [State.regsUpTo, State.reg]

/-! ## Flag and result -/

/-- A flag is 0 or 1. -/
theorem flagByte_cases (c : Bool) : flagByte c = 0#8 ∨ flagByte c = 1#8 := by
  cases c <;> simp [flagByte]

/-- Flag and result from the old operands: the registers afterwards. -/
theorem reg_writeBoth (s : State) (x r : Reg) (res flag : Byte) :
    (writeBoth s x res flag).reg r =
      match s.params.flagOrder with
      | .sequential => if r = x then res else if r = VF then flag else s.reg r
      | .flagLast => if r = VF then flag else if r = x then res else s.reg r := by
  unfold writeBoth
  cases s.params.flagOrder <;> simp

/-- Flag and result change the register file only. -/
theorem writeBoth_eq (s : State) (x : Reg) (res flag : Byte) :
    writeBoth s x res flag = { s with v := (writeBoth s x res flag).v } := by
  unfold writeBoth
  split <;> rfl

/-- The two statements flag-then-result: the registers afterwards, the second statement reading the registers after
the first under Sequential. -/
theorem reg_flagThenResult (s : State) (x r : Reg) (flag res : State → Byte) :
    (flagThenResult s x flag res).reg r =
      match s.params.flagOrder with
      | .sequential => if r = x then res (s.setReg VF (flag s)) else if r = VF then flag s else s.reg r
      | .flagLast => if r = VF then flag s else if r = x then res s else s.reg r := by
  unfold flagThenResult
  cases s.params.flagOrder <;> simp

/-- The two statements flag-then-result change the register file only. -/
theorem flagThenResult_eq (s : State) (x : Reg) (flag res : State → Byte) :
    flagThenResult s x flag res = { s with v := (flagThenResult s x flag res).v } := by
  unfold flagThenResult
  split <;> rfl

/-! ## The call stack -/

/-- Everything a push can do. -/
theorem push_cases (s : State) (a : Word) :
    (s.stack.length < s.params.stackCapacity ∧ push s a = .ok { s with stack := a :: s.stack }) ∨
    (s.params.stackCapacity ≤ s.stack.length ∧ push s a = .error (.stackOverflow s.pc)) := by
  unfold push
  split
  · next h => exact .inr ⟨h, rfl⟩
  · next h => exact .inl ⟨by omega, rfl⟩

/-- Everything a pop can do. -/
theorem pop_cases (s : State) :
    (s.stack = [] ∧ pop s = .error (.stackUnderflow s.pc)) ∨
    (∃ a rest, s.stack = a :: rest ∧ pop s = .ok (a, { s with stack := rest })) := by
  unfold pop
  split
  · next h => exact .inl ⟨h, rfl⟩
  · next a rest h => exact .inr ⟨a, rest, h, rfl⟩

/-! ## Operands -/

/-- Everything a key number can be. -/
theorem keyIndex_cases (b : Byte) :
    (∃ h : b.toNat < 16, keyIndex b = some ⟨b.toNat, h⟩) ∨ (16 ≤ b.toNat ∧ keyIndex b = none) := by
  unfold keyIndex
  split
  · next h => exact .inl ⟨h, rfl⟩
  · next h => exact .inr ⟨by omega, rfl⟩

/-- Everything a glyph address can be. -/
theorem glyphAddress_cases (p : Params) (b : Byte) :
    (b.toNat < 16 ∧ glyphAddress p b = some (BitVec.ofNat 16 (p.fontBase + 5 * b.toNat))) ∨
    (16 ≤ b.toNat ∧ glyphAddress p b = none) := by
  unfold glyphAddress
  split
  · next h => exact .inl ⟨h, rfl⟩
  · next h => exact .inr ⟨by omega, rfl⟩

/-! ## The key latch -/

theorem leastPressedFrom_none (keys : Vector Bool 16) (k n : Nat) :
    leastPressedFrom keys k n = none ↔ ∀ j, k ≤ j → j < k + n → keys.getD j false = false := by
  induction n generalizing k with
  | zero => simp [leastPressedFrom]; omega
  | succ n ih =>
    unfold leastPressedFrom
    by_cases h : keys.getD k false = true
    · rw [if_pos h]
      constructor
      · intro e; cases e
      · intro e; rw [e k (by omega) (by omega)] at h; cases h
    · rw [if_neg h, ih]
      constructor
      · intro e j h1 h2
        by_cases hj : j = k
        · subst hj; simpa using h
        · exact e j (by omega) (by omega)
      · intro e j h1 h2
        exact e j (by omega) (by omega)

theorem leastPressedFrom_some (keys : Vector Bool 16) (k n m : Nat) :
    leastPressedFrom keys k n = some m ↔
      k ≤ m ∧ m < k + n ∧ keys.getD m false = true ∧ ∀ j, k ≤ j → j < m → keys.getD j false = false := by
  induction n generalizing k with
  | zero => simp [leastPressedFrom]; omega
  | succ n ih =>
    unfold leastPressedFrom
    by_cases h : keys.getD k false = true
    · rw [if_pos h]
      constructor
      · intro e; cases e
        exact ⟨by omega, by omega, h, fun j h1 h2 => by omega⟩
      · rintro ⟨h1, h2, h3, h4⟩
        by_cases hm : m = k
        · rw [hm]
        · rw [h4 k (by omega) (by omega)] at h; cases h
    · rw [if_neg h, ih]
      constructor
      · rintro ⟨h1, h2, h3, h4⟩
        refine ⟨by omega, by omega, h3, fun j h5 h6 => ?_⟩
        by_cases hj : j = k
        · subst hj; simpa using h
        · exact h4 j (by omega) h6
      · rintro ⟨h1, h2, h3, h4⟩
        have : m ≠ k := by rintro rfl; exact h h3
        exact ⟨by omega, by omega, h3, fun j h5 h6 => h4 j (by omega) h6⟩

/-- Reading the latch by number agrees with is_pressed. -/
theorem State.getD_keys (s : State) (k : Fin 16) : s.keys.getD k.val false = s.isPressed k := by
  simp [State.isPressed, Vector.getD]

/-- No key is pressed exactly when the search finds none. -/
theorem State.leastPressed_none (s : State) : s.leastPressed = none ↔ ∀ k, s.isPressed k = false := by
  rw [State.leastPressed, leastPressedFrom_none]
  constructor
  · intro h k; rw [← s.getD_keys]; exact h k (by omega) (by omega)
  · intro h j _ h2
    exact (s.getD_keys ⟨j, by omega⟩).trans (h _)

/-- The search finds the least pressed key. -/
theorem State.leastPressed_some (s : State) (m : Nat) :
    s.leastPressed = some m ↔
      ∃ h : m < 16, s.isPressed ⟨m, h⟩ = true ∧ ∀ k : Fin 16, k.val < m → s.isPressed k = false := by
  rw [State.leastPressed, leastPressedFrom_some]
  constructor
  · rintro ⟨_, h2, h3, h4⟩
    refine ⟨by omega, (s.getD_keys ⟨m, by omega⟩).symm.trans h3, fun k hk => ?_⟩
    rw [← s.getD_keys]; exact h4 k (by omega) hk
  · rintro ⟨h, h3, h4⟩
    refine ⟨by omega, by omega, (s.getD_keys ⟨m, h⟩).trans h3, fun j _ hj => ?_⟩
    exact (s.getD_keys ⟨j, by omega⟩).trans (h4 ⟨j, by omega⟩ hj)

end Sys2Proof.Machine
end

