-- ==== Sys2Proof/Laws/Display.lean ====
section
/-! SUPPORT. The laws of the frame buffer and of the sprite raster: what the pixel loops of 44_display.md R191 compute,
pixel by pixel. -/

namespace Sys2Proof.Machine

/-- A pixel write changes that pixel alone, coordinates taken mod 64 and mod 32 (10_state.md R35). -/
theorem pixelAt_setPixel (f : Frame) (x y px py : Nat) (b : Bool) :
    pixelAt (setPixel f x y b) px py =
      if px % 64 = x % 64 ∧ py % 32 = y % 32 then b else pixelAt f px py := by
  unfold pixelAt setPixel
  by_cases hy : py % 32 = y % 32
  · simp only [hy, Vector.getElem_set_self, and_true]
    by_cases hx : px % 64 = x % 64
    · simp [hx]
    · rw [if_neg hx, Vector.getElem_set_ne _ _ (by omega)]
  · rw [if_neg (fun h => hy h.2)]
    congr 1
    exact Vector.getElem_set_ne _ _ (by omega)

/-- Every pixel of the cleared frame buffer is 0. -/
@[simp] theorem pixelAt_blankFrame (px py : Nat) : pixelAt blankFrame px py = false := by
  simp [pixelAt, blankFrame]

/-- Bit `j` of a sprite byte drawn at (cx, y) is set and lands on pixel (px, py). -/
def bitLands (cx y : Nat) (b : Byte) (j px py : Nat) : Prop :=
  b.getLsbD (7 - j) = true ∧ (cx + j) % 64 = px ∧ y % 32 = py

/-- The bits of one row from column `c` on, within 64 columns: each pixel on which a set bit lands is inverted, and the
collision flag is raised when one of them was set. -/
theorem drawBits_spec (cx y : Nat) (b : Byte) (c k : Nat) (acc : Frame × Bool) (hk : c + k ≤ 64) :
    (∀ px py, px < 64 → py < 32 →
      (pixelAt (drawBits cx y b c k acc).1 px py = true ↔
        (pixelAt acc.1 px py = true ↔ ¬∃ j, c ≤ j ∧ j < c + k ∧ bitLands cx y b j px py))) ∧
    ((drawBits cx y b c k acc).2 = true ↔
      acc.2 = true ∨ ∃ j, c ≤ j ∧ j < c + k ∧ b.getLsbD (7 - j) = true ∧
        pixelAt acc.1 ((cx + j) % 64) (y % 32) = true) := by
  induction k generalizing c acc with
  | zero =>
    refine ⟨fun px py _ _ => ?_, ?_⟩
    · simp only [drawBits]
      constructor
      · intro h; exact ⟨fun _ ⟨j, h1, h2, _⟩ => by omega, fun _ => h⟩
      · intro h; exact h.mpr (fun ⟨j, h1, h2, _⟩ => by omega)
    · simp only [drawBits]
      constructor
      · exact .inl
      · rintro (h | ⟨j, h1, h2, _⟩)
        · exact h
        · omega
  | succ k ih =>
    rw [drawBits]
    by_cases hb : b.getLsbD (7 - c) = true
    · rw [if_pos hb]
      obtain ⟨ihp, ihc⟩ := ih (c + 1) (togglePixel ((cx + c) % 64) (y % 32) acc) (by omega)
      refine ⟨fun px py hx hy => ?_, ?_⟩
      · rw [ihp px py hx hy]
        simp only [togglePixel, pixelAt_setPixel]
        by_cases hl : (cx + c) % 64 = px ∧ y % 32 = py
        · have hno : ¬∃ j, c + 1 ≤ j ∧ j < c + 1 + k ∧ bitLands cx y b j px py := by
            rintro ⟨j, h1, h2, _, h4, _⟩; omega
          have hyes : ∃ j, c ≤ j ∧ j < c + (k + 1) ∧ bitLands cx y b j px py :=
            ⟨c, by omega, by omega, hb, hl.1, hl.2⟩
          rw [if_pos (by omega)]
          simp only [hno, hyes, not_true, not_false_iff, iff_true, iff_false]
          obtain ⟨rfl, rfl⟩ := hl
          simp
        · have heq : (∃ j, c + 1 ≤ j ∧ j < c + 1 + k ∧ bitLands cx y b j px py) ↔
              ∃ j, c ≤ j ∧ j < c + (k + 1) ∧ bitLands cx y b j px py := by
            constructor
            · rintro ⟨j, h1, h2, h3⟩; exact ⟨j, by omega, by omega, h3⟩
            · rintro ⟨j, h1, h2, h3⟩
              have : j ≠ c := by rintro rfl; exact hl ⟨h3.2.1, h3.2.2⟩
              exact ⟨j, by omega, by omega, h3⟩
          rw [if_neg (by omega), heq]
      · rw [ihc]
        simp only [togglePixel, pixelAt_setPixel, Bool.or_eq_true]
        constructor
        · rintro ((h | h) | ⟨j, h1, h2, h3, h4⟩)
          · exact .inl h
          · exact .inr ⟨c, by omega, by omega, hb, h⟩
          · rw [if_neg (by omega)] at h4
            exact .inr ⟨j, by omega, by omega, h3, h4⟩
        · rintro (h | ⟨j, h1, h2, h3, h4⟩)
          · exact .inl (.inl h)
          · by_cases hj : j = c
            · subst hj; exact .inl (.inr h4)
            · refine .inr ⟨j, by omega, by omega, h3, ?_⟩
              rw [if_neg (by omega)]; exact h4
    · rw [if_neg hb]
      obtain ⟨ihp, ihc⟩ := ih (c + 1) acc (by omega)
      refine ⟨fun px py hx hy => ?_, ?_⟩
      · rw [ihp px py hx hy]
        have heq : (∃ j, c + 1 ≤ j ∧ j < c + 1 + k ∧ bitLands cx y b j px py) ↔
            ∃ j, c ≤ j ∧ j < c + (k + 1) ∧ bitLands cx y b j px py := by
          constructor
          · rintro ⟨j, h1, h2, h3⟩; exact ⟨j, by omega, by omega, h3⟩
          · rintro ⟨j, h1, h2, h3⟩
            have : j ≠ c := by rintro rfl; exact hb h3.1
            exact ⟨j, by omega, by omega, h3⟩
        rw [heq]
      · rw [ihc]
        constructor
        · rintro (h | ⟨j, h1, h2, h3⟩)
          · exact .inl h
          · exact .inr ⟨j, by omega, by omega, h3⟩
        · rintro (h | ⟨j, h1, h2, h3⟩)
          · exact .inl h
          · have : j ≠ c := by rintro rfl; exact hb h3.1
            exact .inr ⟨j, by omega, by omega, h3⟩

/-- Some set bit of the sprite rows `bs`, the first at row `y`, lands on pixel (px, py). -/
def spriteLands (cx y : Nat) (bs : List Byte) (px py : Nat) : Prop :=
  ∃ r j, r < bs.length ∧ j < 8 ∧ bitLands cx (y + r) (bs.getD r 0#8) j px py

theorem spriteLands_cons (cx y : Nat) (b : Byte) (bs : List Byte) (px py : Nat) :
    spriteLands cx y (b :: bs) px py ↔
      (∃ j, 0 ≤ j ∧ j < 0 + 8 ∧ bitLands cx y b j px py) ∨ spriteLands cx (y + 1) bs px py := by
  constructor
  · rintro ⟨r, j, hr, hj, h⟩
    cases r with
    | zero => exact .inl ⟨j, by omega, by omega, by simpa using h⟩
    | succ r =>
      refine .inr ⟨r, j, by simpa using hr, hj, ?_⟩
      rw [List.getD_cons_succ] at h
      rwa [show y + 1 + r = y + (r + 1) by omega]
  · rintro (⟨j, _, hj, h⟩ | ⟨r, j, hr, hj, h⟩)
    · exact ⟨0, j, by simp, by omega, by simpa using h⟩
    · refine ⟨r + 1, j, by simpa using hr, hj, ?_⟩
      rw [List.getD_cons_succ]
      rwa [show y + (r + 1) = y + 1 + r by omega]

/-- Two inversions that never meet are one inversion. -/
theorem invert_twice {a b c : Prop} (h : b → ¬c) : ((a ↔ ¬b) ↔ ¬c) ↔ (a ↔ ¬(b ∨ c)) := by
  by_cases hb : b
  · simp [hb, h hb]
  · by_cases ha : a <;> by_cases hc : c <;> simp [ha, hb, hc]

/-- The rows of a sprite of at most 32 rows: each pixel on which a set bit lands is inverted, and the collision flag is
raised exactly when one of them was set before. -/
theorem drawRows_spec (cx y : Nat) (bs : List Byte) (acc : Frame × Bool) (hn : bs.length ≤ 32) :
    (∀ px py, px < 64 → py < 32 →
      (pixelAt (drawRows cx y bs acc).1 px py = true ↔
        (pixelAt acc.1 px py = true ↔ ¬spriteLands cx y bs px py))) ∧
    ((drawRows cx y bs acc).2 = true ↔
      acc.2 = true ∨ ∃ px py, px < 64 ∧ py < 32 ∧ spriteLands cx y bs px py ∧ pixelAt acc.1 px py = true) := by
  induction bs generalizing y acc with
  | nil =>
    have hno : ∀ px py, ¬spriteLands cx y [] px py := by rintro px py ⟨r, _, hr, _⟩; simp at hr
    simp [drawRows, hno]
  | cons b bs ih =>
    simp only [List.length_cons] at hn
    rw [drawRows]
    obtain ⟨bp, bc⟩ := drawBits_spec cx y b 0 8 acc (by omega)
    obtain ⟨ihp, ihc⟩ := ih (y + 1) (drawBits cx y b 0 8 acc) (by omega)
    have apart : ∀ px py, py < 32 → (∃ j, 0 ≤ j ∧ j < 0 + 8 ∧ bitLands cx y b j px py) →
        ¬spriteLands cx (y + 1) bs px py := by
      rintro px py _ ⟨_, _, _, _, _, h⟩ ⟨r, _, hr, _, _, _, h'⟩
      omega
    refine ⟨fun px py hx hy => ?_, ?_⟩
    · rw [ihp px py hx hy, bp px py hx hy, spriteLands_cons]
      exact invert_twice (apart px py hy)
    · rw [ihc, bc]
      constructor
      · rintro ((h | ⟨j, h1, h2, h3, h4⟩) | ⟨px, py, hx, hy, h3, h4⟩)
        · exact .inl h
        · exact .inr ⟨(cx + j) % 64, y % 32, by omega, by omega,
            (spriteLands_cons ..).mpr (.inl ⟨j, h1, h2, h3, rfl, rfl⟩), h4⟩
        · refine .inr ⟨px, py, hx, hy, (spriteLands_cons ..).mpr (.inr h3), ?_⟩
          exact ((bp px py hx hy).mp h4).mpr fun h => apart px py hy h h3
      · rintro (h | ⟨px, py, hx, hy, h3, h4⟩)
        · exact .inl (.inl h)
        · rcases (spriteLands_cons ..).mp h3 with ⟨j, h1, h2, hb, rfl, rfl⟩ | h
          · exact .inl (.inr ⟨j, h1, h2, hb, h4⟩)
          · refine .inr ⟨px, py, hx, hy, h, (bp px py hx hy).mpr ?_⟩
            exact ⟨fun _ h' => apart px py hy h' h, fun _ => h4⟩

end Sys2Proof.Machine
end

