-- ==== Sys2Proof/Laws/Memory.lean ====
section
/-! SUPPORT. The laws of memory: read after write (20_memory.md R52), the canonical form is kept by every operation,
and what the stores and loads of a row of bytes can do (R51, R59). -/

namespace Sys2Proof.Machine

/-! ## One byte -/

theorem Memory.find_insert (m : Memory) (a b : Nat) (v : Byte) :
    Memory.find b (Memory.insert a v m) = if b = a then some v else Memory.find b m := by
  induction m with
  | nil => simp [Memory.insert, Memory.find, eq_comm]
  | cons c m ih =>
    obtain ⟨d, w⟩ := c
    unfold Memory.insert
    split
    · simp only [Memory.find, eq_comm (a := a)]
    · split
      · next h => subst h; simp only [Memory.find, eq_comm (a := a)]; split <;> rfl
      · next h1 h2 =>
        simp only [Memory.find, ih]
        by_cases hd : d = b
        · subst hd; rw [if_pos rfl, if_neg (fun h => h2 h.symm), if_pos rfl]
        · rw [if_neg hd, if_neg hd]

theorem Memory.find_erase (m : Memory) (a b : Nat) :
    Memory.find b (Memory.erase a m) = if b = a then none else Memory.find b m := by
  induction m with
  | nil => simp [Memory.erase, Memory.find]
  | cons c m ih =>
    obtain ⟨d, w⟩ := c
    unfold Memory.erase
    split
    · next h =>
      subst h
      rw [ih]
      split
      · rfl
      · next hb => rw [Memory.find, if_neg (fun h => hb h.symm)]
    · next h =>
      simp only [Memory.find, ih]
      by_cases hd : d = b
      · subst hd; simp [h]
      · simp [hd]

/-- What memory holds after a byte is stored: the byte there, the old bytes elsewhere. -/
theorem Memory.get_put (p : Params) (m : Memory) (a b : Nat) (v : Byte) :
    Memory.get p (Memory.put p m a v) b = if b = a then v else Memory.get p m b := by
  unfold Memory.put
  split
  · next h =>
    simp only [Memory.get, Memory.find_erase]
    split
    · next hb => subst hb; simpa using h.symm
    · rfl
  · simp only [Memory.get, Memory.find_insert]
    split <;> rfl

/-- A store changes only the byte written. -/
@[simp] theorem State.peek_poke (s : State) (a b : Nat) (v : Byte) :
    (s.poke a v).peek b = if b = a then v else s.peek b :=
  Memory.get_put s.params s.mem a b v

/-- Bytes read the same where parameters and memory are the same. -/
theorem State.peek_congr {s t : State} (hp : t.params = s.params) (hm : t.mem = s.mem) (a : Nat) :
    t.peek a = s.peek a := by
  simp [State.peek, hp, hm]

/-! ## The canonical form -/

theorem Memory.wfFrom_mono {p : Params} {lo lo' : Nat} {m : Memory} (h : lo' ≤ lo)
    (hm : Memory.wfFrom p lo m = true) : Memory.wfFrom p lo' m = true := by
  cases m with
  | nil => rfl
  | cons c m =>
    simp only [Memory.wfFrom, Bool.and_eq_true, decide_eq_true_eq] at hm ⊢
    exact ⟨⟨⟨by omega, hm.1.1.2⟩, hm.1.2⟩, hm.2⟩

theorem Memory.wfFrom_insert {p : Params} {lo a : Nat} {v : Byte} {m : Memory}
    (hlo : lo ≤ a) (ha : a < memSize) (hv : v ≠ unlisted p a) (hm : Memory.wfFrom p lo m = true) :
    Memory.wfFrom p lo (Memory.insert a v m) = true := by
  induction m generalizing lo with
  | nil => simp [Memory.insert, Memory.wfFrom, hlo, ha, hv]
  | cons c m ih =>
    obtain ⟨d, w⟩ := c
    simp only [Memory.wfFrom, Bool.and_eq_true, decide_eq_true_eq] at hm
    obtain ⟨⟨⟨h1, h2⟩, h3⟩, h4⟩ := hm
    unfold Memory.insert
    split
    · simp only [Memory.wfFrom, Bool.and_eq_true, decide_eq_true_eq]
      exact ⟨⟨⟨hlo, ha⟩, hv⟩, ⟨⟨by omega, h2⟩, h3⟩, h4⟩
    · split
      · next h =>
        subst h
        simp only [Memory.wfFrom, Bool.and_eq_true, decide_eq_true_eq]
        exact ⟨⟨⟨hlo, ha⟩, hv⟩, h4⟩
      · simp only [Memory.wfFrom, Bool.and_eq_true, decide_eq_true_eq]
        exact ⟨⟨⟨h1, h2⟩, h3⟩, ih (by omega) h4⟩

theorem Memory.wfFrom_erase {p : Params} {lo a : Nat} {m : Memory} (hm : Memory.wfFrom p lo m = true) :
    Memory.wfFrom p lo (Memory.erase a m) = true := by
  induction m generalizing lo with
  | nil => rfl
  | cons c m ih =>
    obtain ⟨d, w⟩ := c
    simp only [Memory.wfFrom, Bool.and_eq_true, decide_eq_true_eq] at hm
    obtain ⟨⟨⟨h1, h2⟩, h3⟩, h4⟩ := hm
    unfold Memory.erase
    split
    · exact Memory.wfFrom_mono (by omega) (ih h4)
    · simp only [Memory.wfFrom, Bool.and_eq_true, decide_eq_true_eq]
      exact ⟨⟨⟨h1, h2⟩, h3⟩, ih h4⟩

/-- A store inside memory keeps the canonical form. -/
theorem Memory.wf_put {p : Params} {m : Memory} {a : Nat} {v : Byte} (ha : a < memSize)
    (hm : Memory.wf p m = true) : Memory.wf p (Memory.put p m a v) = true := by
  unfold Memory.put
  split
  · exact Memory.wfFrom_erase hm
  · next h => exact Memory.wfFrom_insert (Nat.zero_le a) ha h hm

/-- Memory built from any cells is in canonical form. -/
theorem Memory.wf_ofCells (p : Params) (cs : List Host.Cell) : Memory.wf p (Memory.ofCells p cs) = true := by
  induction cs with
  | nil => rfl
  | cons c cs ih =>
    obtain ⟨a, v⟩ := c
    unfold Memory.ofCells
    split
    · next h => exact Memory.wf_put h ih
    · exact ih

/-- The canonical form depends on the parameters only through what unlisted addresses read as. -/
theorem Memory.wf_nil (p : Params) : Memory.wf p [] = true := rfl

/-! ## MemRead and MemWrite -/

theorem memRead_ok {s : State} {a : Nat} (h : a < memSize) : memRead s a = .ok (s.peek a) := by
  simp [memRead, Nat.not_le.mpr h]

theorem memRead_error {s : State} {a : Nat} (h : memSize ≤ a) : memRead s a = .error (.outOfBoundsMemory a) := by
  simp [memRead, h]

theorem memWrite_ok {s : State} {a : Nat} {v : Byte} (h : a < memSize) : memWrite s a v = .ok (s.poke a v) := by
  simp [memWrite, Nat.not_le.mpr h]

theorem memWrite_error {s : State} {a : Nat} {v : Byte} (h : memSize ≤ a) :
    memWrite s a v = .error (.outOfBoundsMemory a) := by
  simp [memWrite, h]

/-! ## Rows of bytes -/

/-- The bytes placed one after another, with no bounds check: what a store that faults nowhere does. -/
theorem State.placeBytes_params (s : State) (a : Nat) (bs : List Byte) : (placeBytes s a bs).params = s.params := by
  induction bs generalizing s a with
  | nil => rfl
  | cons b bs ih => simp [placeBytes, ih]

/-- Placing bytes changes memory only. -/
theorem State.placeBytes_eq (s : State) (a : Nat) (bs : List Byte) :
    placeBytes s a bs = { s with mem := (placeBytes s a bs).mem } := by
  induction bs generalizing s a with
  | nil => rfl
  | cons b bs ih => rw [placeBytes, ih]; rfl

/-- What an address reads after bytes are placed from `a` on. -/
theorem State.peek_placeBytes (s : State) (a b : Nat) (bs : List Byte) :
    (placeBytes s a bs).peek b =
      if a ≤ b ∧ b < a + bs.length then bs.getD (b - a) 0#8 else s.peek b := by
  induction bs generalizing s a with
  | nil => simp [placeBytes]
  | cons c bs ih =>
    rw [placeBytes, ih, State.peek_poke]
    by_cases hb : b = a
    · subst hb; simp
    · by_cases h : a + 1 ≤ b ∧ b < a + 1 + bs.length
      · have h' : a ≤ b ∧ b < a + (c :: bs).length := ⟨by omega, by simp; omega⟩
        have e : b - a = (b - (a + 1)) + 1 := by omega
        rw [if_pos h, if_pos h', e, List.getD_cons_succ]
      · have h' : ¬(a ≤ b ∧ b < a + (c :: bs).length) := by simp; omega
        rw [if_neg h, if_neg h', if_neg hb]

theorem State.wf_placeBytes {s : State} {a : Nat} {bs : List Byte} (h : a + bs.length ≤ memSize)
    (hm : Memory.wf s.params s.mem = true) :
    Memory.wf s.params (placeBytes s a bs).mem = true := by
  induction bs generalizing s a with
  | nil => exact hm
  | cons b bs ih =>
    simp only [List.length_cons] at h
    have := ih (s := s.poke a b) (a := a + 1) (by omega) (Memory.wf_put (by simp [memSize] at h ⊢; omega) hm)
    rw [placeBytes]
    simpa using this

/-- A row inside memory is stored whole. -/
theorem storeBytes_ok {s : State} {a : Nat} {bs : List Byte} (h : bs = [] ∨ a + bs.length ≤ memSize) :
    storeBytes s a bs = .ok (placeBytes s a bs) := by
  induction bs generalizing s a with
  | nil => rfl
  | cons b bs ih =>
    have h : a + (bs.length + 1) ≤ memSize := by simpa using h
    rw [storeBytes, memWrite_ok (by omega)]
    exact ih (.inr (by omega))

/-- A row that leaves memory is a fatal error at its first address outside. -/
theorem storeBytes_error {s : State} {a : Nat} {bs : List Byte} (hne : bs ≠ []) (h : memSize < a + bs.length) :
    storeBytes s a bs = .error (.outOfBoundsMemory (max a memSize)) := by
  induction bs generalizing s a with
  | nil => exact absurd rfl hne
  | cons b bs ih =>
    rw [storeBytes]
    by_cases ha : memSize ≤ a
    · rw [memWrite_error ha, Nat.max_eq_left ha]
    · rw [memWrite_ok (by omega)]
      simp only [List.length_cons] at h
      have hne' : bs ≠ [] := by intro e; subst e; simp at h; omega
      have e := ih (s := s.poke a b) (a := a + 1) hne' (by omega)
      rw [Nat.max_eq_right (by omega)] at e
      rw [Nat.max_eq_right (by omega)]
      exact e

/-- Everything a store of a row can do. -/
theorem storeBytes_cases (s : State) (a : Nat) (bs : List Byte) :
    ((bs = [] ∨ a + bs.length ≤ memSize) ∧ storeBytes s a bs = .ok (placeBytes s a bs)) ∨
    (bs ≠ [] ∧ memSize < a + bs.length ∧ storeBytes s a bs = .error (.outOfBoundsMemory (max a memSize))) := by
  by_cases h : bs = [] ∨ a + bs.length ≤ memSize
  · exact .inl ⟨h, storeBytes_ok h⟩
  · obtain ⟨h1, h2⟩ := not_or.mp h
    exact .inr ⟨h1, by omega, storeBytes_error h1 (by omega)⟩

/-- A row inside memory is loaded whole. -/
theorem loadBytes_ok {s : State} {a n : Nat} (h : n = 0 ∨ a + n ≤ memSize) :
    loadBytes s a n = .ok ((List.range n).map fun k => s.peek (a + k)) := by
  induction n generalizing a with
  | zero => rfl
  | succ n ih =>
    have h : a + (n + 1) ≤ memSize := by simpa using h
    rw [loadBytes, memRead_ok (by omega)]
    dsimp only
    rw [ih (.inr (by omega))]
    simp only [List.range_succ_eq_map, List.map_cons, List.map_map, Nat.add_zero]
    congr 2
    apply List.map_congr_left
    intro k _
    simp only [Function.comp]
    congr 1
    omega

/-- A row that leaves memory is a fatal error at its first address outside. -/
theorem loadBytes_error {s : State} {a n : Nat} (hne : n ≠ 0) (h : memSize < a + n) :
    loadBytes s a n = .error (.outOfBoundsMemory (max a memSize)) := by
  induction n generalizing a with
  | zero => exact absurd rfl hne
  | succ n ih =>
    rw [loadBytes]
    by_cases ha : memSize ≤ a
    · rw [memRead_error ha, Nat.max_eq_left ha]
    · rw [memRead_ok (by omega)]
      dsimp only
      rw [ih (by omega) (by omega), Nat.max_eq_right (by omega), Nat.max_eq_right (by omega)]

/-- Everything a load of a row can do. -/
theorem loadBytes_cases (s : State) (a n : Nat) :
    ((n = 0 ∨ a + n ≤ memSize) ∧ loadBytes s a n = .ok ((List.range n).map fun k => s.peek (a + k))) ∨
    (n ≠ 0 ∧ memSize < a + n ∧ loadBytes s a n = .error (.outOfBoundsMemory (max a memSize))) := by
  by_cases h : n = 0 ∨ a + n ≤ memSize
  · exact .inl ⟨h, loadBytes_ok h⟩
  · obtain ⟨h1, h2⟩ := not_or.mp h
    exact .inr ⟨h1, by omega, loadBytes_error h1 (by omega)⟩

end Sys2Proof.Machine
end

