-- ==== Sys2Proof/Laws/PerInstr.lean ====
section
/-! SUPPORT. One lemma per constructor: the encoder's word matches its row of spec/opcode_table.json, that is, the
word under the row's mask is the row's match. -/

namespace Sys2Proof.Laws.Encoding

/-- The mask of the instruction's row. -/
def tableMask (i : Instr) : Word :=
  match i with
  | .cls | .ret => 0xFFFF#16
  | .jp _ | .call _ | .ldI _ => 0xF000#16
  | .seImm _ _ | .sneImm _ _ | .ldImm _ _ | .addImm _ _ | .rnd _ _ | .drw _ _ _ => 0xF000#16
  | .ldReg _ _ | .orReg _ _ | .andReg _ _ | .xorReg _ _ | .addReg _ _ | .sub _ _ | .shr _ _ => 0xF00F#16
  | .subn _ _ | .shl _ _ | .sneReg _ _ => 0xF00F#16
  | .skp _ | .sknp _ | .ldVxDt _ | .ldVxK _ | .ldDtVx _ | .ldStVx _ | .addIVx _ | .ldFVx _ => 0xF0FF#16
  | .ldBVx _ | .ldMemVx _ | .ldVxMem _ => 0xF0FF#16

/-- The match of the instruction's row. -/
def tableMatch (i : Instr) : Word :=
  match i with
  | .cls => 0x00E0#16
  | .ret => 0x00EE#16
  | .jp _ => 0x1000#16
  | .call _ => 0x2000#16
  | .seImm _ _ => 0x3000#16
  | .sneImm _ _ => 0x4000#16
  | .ldImm _ _ => 0x6000#16
  | .addImm _ _ => 0x7000#16
  | .ldReg _ _ => 0x8000#16
  | .orReg _ _ => 0x8001#16
  | .andReg _ _ => 0x8002#16
  | .xorReg _ _ => 0x8003#16
  | .addReg _ _ => 0x8004#16
  | .sub _ _ => 0x8005#16
  | .shr _ _ => 0x8006#16
  | .subn _ _ => 0x8007#16
  | .shl _ _ => 0x800E#16
  | .sneReg _ _ => 0x9000#16
  | .ldI _ => 0xA000#16
  | .rnd _ _ => 0xC000#16
  | .drw _ _ _ => 0xD000#16
  | .skp _ => 0xE09E#16
  | .sknp _ => 0xE0A1#16
  | .ldVxDt _ => 0xF007#16
  | .ldVxK _ => 0xF00A#16
  | .ldDtVx _ => 0xF015#16
  | .ldStVx _ => 0xF018#16
  | .addIVx _ => 0xF01E#16
  | .ldFVx _ => 0xF029#16
  | .ldBVx _ => 0xF033#16
  | .ldMemVx _ => 0xF055#16
  | .ldVxMem _ => 0xF065#16

/-- The encoder's word matches the instruction's row of the opcode table. -/
def Statement (i : Instr) : Prop := encode i &&& tableMask i = tableMatch i

/-- A format A word under the mask of its top nibble. -/
theorem formatA_and (t : BitVec 4) (nnn : Addr12) : formatA t nnn &&& (0xF#4 ++ 0#12 : Word) = (t ++ 0#12 : Word) := by
  rw [formatA, BitVec.and_append, BitVec.and_zero, show t &&& 0xF#4 = t from BitVec.and_allOnes]

/-- A format XK word under the mask of its top nibble. -/
theorem formatXK_and (t : BitVec 4) (x : Reg) (kk : Byte) :
    formatXK t x kk &&& (0xF#4 ++ 0#12 : Word) = (t ++ 0#12 : Word) := by
  rw [formatXK, BitVec.and_append, BitVec.and_zero, show t &&& 0xF#4 = t from BitVec.and_allOnes]

/-- A format XF word under the mask of its top nibble and low byte. -/
theorem formatXF_and (t : BitVec 4) (x : Reg) (f : Byte) :
    formatXK t x f &&& (0xF#4 ++ (0#4 ++ 0xFF#8) : Word) = (t ++ (0#4 ++ f) : Word) := by
  rw [formatXK, BitVec.and_append, BitVec.and_append, BitVec.and_zero,
    show t &&& 0xF#4 = t from BitVec.and_allOnes, show f &&& 0xFF#8 = f from BitVec.and_allOnes]

/-- A format XYN word under the mask of its top nibble. -/
theorem formatXYN_and (t : BitVec 4) (x y : Reg) (n : BitVec 4) :
    formatXY t x y n &&& (0xF#4 ++ 0#12 : Word) = (t ++ 0#12 : Word) := by
  rw [formatXY, BitVec.and_append, BitVec.and_zero, show t &&& 0xF#4 = t from BitVec.and_allOnes]

/-- A format XY word under the mask of its top and low nibbles. -/
theorem formatXY_and (t : BitVec 4) (x y : Reg) (f : BitVec 4) :
    formatXY t x y f &&& (0xF#4 ++ (0#4 ++ (0#4 ++ 0xF#4)) : Word) = (t ++ (0#4 ++ (0#4 ++ f)) : Word) := by
  rw [formatXY, BitVec.and_append, BitVec.and_append, BitVec.and_append, BitVec.and_zero, BitVec.and_zero,
    show t &&& 0xF#4 = t from BitVec.and_allOnes, show f &&& 0xF#4 = f from BitVec.and_allOnes]

theorem cls : Statement .cls := rfl
theorem ret : Statement .ret := rfl
theorem jp (nnn : Addr12) : Statement (.jp nnn) := formatA_and 0x1 nnn
theorem call (nnn : Addr12) : Statement (.call nnn) := formatA_and 0x2 nnn
theorem seImm (x : Reg) (kk : Byte) : Statement (.seImm x kk) := formatXK_and 0x3 x kk
theorem sneImm (x : Reg) (kk : Byte) : Statement (.sneImm x kk) := formatXK_and 0x4 x kk
theorem ldImm (x : Reg) (kk : Byte) : Statement (.ldImm x kk) := formatXK_and 0x6 x kk
theorem addImm (x : Reg) (kk : Byte) : Statement (.addImm x kk) := formatXK_and 0x7 x kk
theorem ldReg (x y : Reg) : Statement (.ldReg x y) := formatXY_and 0x8 x y 0x0
theorem orReg (x y : Reg) : Statement (.orReg x y) := formatXY_and 0x8 x y 0x1
theorem andReg (x y : Reg) : Statement (.andReg x y) := formatXY_and 0x8 x y 0x2
theorem xorReg (x y : Reg) : Statement (.xorReg x y) := formatXY_and 0x8 x y 0x3
theorem addReg (x y : Reg) : Statement (.addReg x y) := formatXY_and 0x8 x y 0x4
theorem sub (x y : Reg) : Statement (.sub x y) := formatXY_and 0x8 x y 0x5
theorem shr (x y : Reg) : Statement (.shr x y) := formatXY_and 0x8 x y 0x6
theorem subn (x y : Reg) : Statement (.subn x y) := formatXY_and 0x8 x y 0x7
theorem shl (x y : Reg) : Statement (.shl x y) := formatXY_and 0x8 x y 0xE
theorem sneReg (x y : Reg) : Statement (.sneReg x y) := formatXY_and 0x9 x y 0x0
theorem ldI (nnn : Addr12) : Statement (.ldI nnn) := formatA_and 0xA nnn
theorem rnd (x : Reg) (kk : Byte) : Statement (.rnd x kk) := formatXK_and 0xC x kk
theorem drw (x y : Reg) (n : BitVec 4) : Statement (.drw x y n) := formatXYN_and 0xD x y n
theorem skp (x : Reg) : Statement (.skp x) := formatXF_and 0xE x 0x9E
theorem sknp (x : Reg) : Statement (.sknp x) := formatXF_and 0xE x 0xA1
theorem ldVxDt (x : Reg) : Statement (.ldVxDt x) := formatXF_and 0xF x 0x07
theorem ldVxK (x : Reg) : Statement (.ldVxK x) := formatXF_and 0xF x 0x0A
theorem ldDtVx (x : Reg) : Statement (.ldDtVx x) := formatXF_and 0xF x 0x15
theorem ldStVx (x : Reg) : Statement (.ldStVx x) := formatXF_and 0xF x 0x18
theorem addIVx (x : Reg) : Statement (.addIVx x) := formatXF_and 0xF x 0x1E
theorem ldFVx (x : Reg) : Statement (.ldFVx x) := formatXF_and 0xF x 0x29
theorem ldBVx (x : Reg) : Statement (.ldBVx x) := formatXF_and 0xF x 0x33
theorem ldMemVx (x : Reg) : Statement (.ldMemVx x) := formatXF_and 0xF x 0x55
theorem ldVxMem (x : Reg) : Statement (.ldVxMem x) := formatXF_and 0xF x 0x65

end Sys2Proof.Laws.Encoding
end

