-- ==== Sys2Proof/Laws/Scheduler.lean ====
section
/-! SUPPORT. What the timer tick, the drain of the timers, the host ports and the clock periods can do, each said once. -/

namespace Sys2Proof

/-- Both periods divide the unit of time, and no period of a legal choice is 0 (60_exceptions.md R240, R241). -/
theorem Params.periods {p : Params} (h : p.legal) :
    60 * p.timerPeriod = p.unitsPerSecond ∧ p.cpuHz * p.cpuPeriod = p.unitsPerSecond ∧
      0 < p.timerPeriod ∧ 0 < p.cpuPeriod := by
  have hu : 0 < p.unitsPerSecond := Nat.mul_pos (Nat.lcm_pos (by omega) h.1) h.2.2.2.2.2
  have ht : 60 * p.timerPeriod = p.unitsPerSecond :=
    Nat.mul_div_cancel' (Dvd.dvd.mul_right (Nat.dvd_lcm_left _ _) _)
  have hc : p.cpuHz * p.cpuPeriod = p.unitsPerSecond :=
    Nat.mul_div_cancel' (Dvd.dvd.mul_right (Nat.dvd_lcm_right _ _) _)
  refine ⟨ht, hc, Nat.pos_of_ne_zero fun h0 => ?_, Nat.pos_of_ne_zero fun h0 => ?_⟩
  · rw [h0] at ht; omega
  · rw [h0] at hc; omega

/-- The waveform parameters at reset are legal, whatever the free choice is. -/
theorem Config.waveform_legal : Config.waveform.legal := by
  unfold Config.waveform
  split
  · assumption
  · decide

namespace Machine

/-- A timer counts down to 0 and no further. -/
theorem countDown_toNat (b : Byte) : (countDown b).toNat = b.toNat - 1 := by
  unfold countDown
  split
  · next h => subst h; rfl
  · next h => bv_omega

/-- Adding the present value keeps it among those held. -/
theorem Held.add_holds (h : Held) (b : Bool) : if b then (h.add b).high = true else (h.add b).low = true := by
  cases b <;> simp [Held.add]

/-- One value alone is held. -/
theorem Held.only_holds (b : Bool) : if b then (Held.only b).high = true else (Held.only b).low = true := by
  cases b <;> simp [Held.only]

/-- What one timer tick of the drain does to the fields that the scheduler reads. -/
theorem timerStep_fields {s : State} (hp : s.pending = []) :
    (timerStep s).pending = [] ∧ (timerStep s).params = s.params ∧ (timerStep s).status = s.status ∧
      (timerStep s).accTimer = s.accTimer - s.params.timerPeriod ∧ (timerStep s).accCpu = s.accCpu := by
  simp [timerStep, timerTick, State.setPlaying, hp]

/-- What the drain of `n` timer periods does to the fields that the scheduler reads. -/
theorem drainTimers_fields (n : Nat) {s : State} (hp : s.pending = []) :
    (drainTimers n s).pending = [] ∧ (drainTimers n s).params = s.params ∧ (drainTimers n s).status = s.status ∧
      (drainTimers n s).accTimer = s.accTimer - n * s.params.timerPeriod ∧ (drainTimers n s).accCpu = s.accCpu := by
  induction n generalizing s with
  | zero => simp [drainTimers, hp]
  | succ n ih =>
    obtain ⟨a, b, c, d, e⟩ := timerStep_fields hp
    obtain ⟨a', b', c', d', e'⟩ := ih a
    rw [drainTimers]
    refine ⟨a', b'.trans b, c'.trans c, ?_, e'.trans e⟩
    rw [d', d, b, Nat.succ_mul]
    omega

/-- A host move changes neither the parameters nor the pending moves. -/
theorem applyMove_fields (m : HostMove) (s : State) :
    (applyMove m s).params = s.params ∧ (applyMove m s).pending = s.pending ∧ (applyMove m s).mem = s.mem := by
  cases m <;> simp only [applyMove, deliver, setKey, pull, quit, pullWith, and_self]
  · split <;> exact ⟨rfl, rfl, rfl⟩
  · split <;> exact ⟨rfl, rfl, rfl⟩

/-- The number of samples is that of the formula (60_exceptions.md R253). -/
@[simp] theorem length_synthWave (w : WaveParams) : (synthWave w).length = sampleCount w := by
  simp [synthWave]

/-- There is at least one sample (60_exceptions.md R253). -/
theorem sampleCount_pos {w : WaveParams} (h : w.legal) : 0 < sampleCount w :=
  Nat.div_pos h.2.2.2.2.2.2.2 h.2.2.2.2.2.2.1

end Machine

end Sys2Proof
end

