-- ==== Sys2Proof/Laws/Tick.lean ====
section
/-! SUPPORT. What a fetch, a CPU tick, the choice of the next agent and one step can do, each said once. -/

namespace Sys2Proof.Machine

/-! ## Fetch -/

/-- A fetch inside memory. -/
theorem fetch_ok {s : State} (h : s.pc.toNat + 1 < memSize) :
    fetch s = .ok (combine (s.peek s.pc.toNat) (s.peek (s.pc.toNat + 1))) := by
  simp [fetch, memRead_ok (s := s) (a := s.pc.toNat) (by omega), memRead_ok h]

/-- Everything a fetch can do (40_execute_cycle.md R101). -/
theorem fetch_cases (s : State) :
    (s.pc.toNat + 1 < memSize ∧ fetch s = .ok (combine (s.peek s.pc.toNat) (s.peek (s.pc.toNat + 1)))) ∨
    (s.pc.toNat + 1 = memSize ∧ fetch s = .error (.outOfBoundsMemory memSize)) ∨
    (memSize ≤ s.pc.toNat ∧ fetch s = .error (.outOfBoundsMemory s.pc.toNat)) := by
  rcases Nat.lt_trichotomy (s.pc.toNat + 1) memSize with h | h | h
  · exact .inl ⟨h, fetch_ok h⟩
  · refine .inr (.inl ⟨h, ?_⟩)
    rw [fetch, memRead_ok (by omega)]
    dsimp only
    rw [memRead_error (by omega), h]
  · refine .inr (.inr ⟨by omega, ?_⟩)
    rw [fetch, memRead_error (by omega)]

/-! ## Instructions -/

/-- Everything an instruction can answer: a next state, a fatal error, or one of the spec's two refusals. -/
theorem exec_cases (i : Instr) (s : State) :
    (∃ t, exec i s = .next t) ∨ (∃ f, exec i s = .fault f) ∨
    (∃ v, exec i s = .refused (.keyIndexOutOfRange v)) ∨ ∃ v, exec i s = .refused (.fontDigitOutOfRange v) := by
  cases i <;> simp only [exec] <;> try exact .inl ⟨_, rfl⟩
  case ret => unfold execRet; split <;> simp
  case call => unfold execCall; split <;> simp
  case drw => unfold execDrw; split <;> simp
  case skp => unfold execSkp; split <;> simp
  case sknp => unfold execSknp; split <;> simp
  case ldVxK => unfold execLdVxK; split <;> simp
  case ldFVx => unfold execLdFVx; split <;> simp
  case ldBVx => unfold execLdBVx Machine.ofExcept; split <;> simp
  case ldMemVx => unfold execLdMemVx; split <;> simp
  case ldVxMem => unfold execLdVxMem; split <;> simp

/-! ## The CPU tick -/

/-- A fetch fault ends the tick (40_execute_cycle.md R101). -/
theorem cpuTick_of_fault {s : State} {f : Fault} (h : fetch s = .error f) : cpuTick s = .next (s.raise f) := by
  simp [cpuTick, h]

/-- An unknown word ends the run gracefully (40_execute_cycle.md R105). -/
theorem cpuTick_of_unknown {s : State} {op : Word} {e : DecodeError} (h : fetch s = .ok op)
    (hd : decode s.params.enableExA1 op = .error e) : cpuTick s = .next (s.advanced.finish op s.pc) := by
  simp [cpuTick, h, runOpcode, hd]

/-- A recognised word is executed on the advanced pc (40_execute_cycle.md R103, R106). -/
theorem cpuTick_of_instr {s : State} {op : Word} {i : Instr} (h : fetch s = .ok op)
    (hd : decode s.params.enableExA1 op = .ok i) : cpuTick s = endTick s (exec i s.advanced) := by
  simp [cpuTick, h, runOpcode, hd]

/-- Everything a CPU tick can do. -/
theorem cpuTick_cases (s : State) :
    (∃ f, fetch s = .error f ∧ cpuTick s = .next (s.raise f)) ∨
    (∃ op e, fetch s = .ok op ∧ decode s.params.enableExA1 op = .error e ∧
      cpuTick s = .next (s.advanced.finish op s.pc)) ∨
    (∃ op i, fetch s = .ok op ∧ decode s.params.enableExA1 op = .ok i ∧
      cpuTick s = endTick s (exec i s.advanced)) := by
  cases h : fetch s with
  | error f => exact .inl ⟨f, rfl, cpuTick_of_fault h⟩
  | ok op =>
    cases hd : decode s.params.enableExA1 op with
    | error e => exact .inr (.inl ⟨op, e, rfl, hd, cpuTick_of_unknown h hd⟩)
    | ok i => exact .inr (.inr ⟨op, i, rfl, hd, cpuTick_of_instr h hd⟩)

/-! ## Whose move is next -/

/-- With nothing pending the core moves. -/
theorem turn_of_nil {s : State} (hr : s.status = .running) (hp : s.pending = []) : turn s = coreTurn s := by
  simp [turn, hr, hp]

theorem coreTurn_timer {s : State} (h : s.params.timerPeriod ≤ s.accTimer) : coreTurn s = .timer := by
  simp [coreTurn, State.timerDue, h]

theorem coreTurn_cpu {s : State} (ht : s.accTimer < s.params.timerPeriod) (hc : s.params.cpuPeriod ≤ s.accCpu) :
    coreTurn s = .cpu := by
  simp [coreTurn, State.timerDue, State.cpuDue, Nat.not_le.mpr ht, hc]

theorem coreTurn_idle {s : State} (ht : s.accTimer < s.params.timerPeriod) (hc : s.accCpu < s.params.cpuPeriod) :
    coreTurn s = .idle := by
  simp [coreTurn, State.timerDue, State.cpuDue, Nat.not_le.mpr ht, Nat.not_le.mpr hc]

/-- A halted machine keeps its state (60_exceptions.md R245). -/
theorem step_of_halted {s : State} (h : s.status ≠ .running) : step s = .next s := by
  simp [step, machineStep, turn, h]

/-- A step, by whose move is next. -/
theorem step_eq (s : State) :
    step s = match turn s with
      | .halted => .next s
      | .host m rest => .next (applyMove m { s with pending := rest })
      | .timer => .next (timerStep s)
      | .cpu => cpuStep s
      | .idle => .next (idleStep s) := rfl

/-- Only a running machine has a turn. -/
theorem turn_running {s : State} (h : turn s ≠ .halted) : s.status = .running := by
  by_contra hr
  exact h (by simp [turn, hr])

/-- A CPU step with nothing pending is the tick, then the drain. -/
theorem cpuStep_of_next {s t : State} (hp : s.pending = []) (h : cpuTick s = .next t) :
    cpuStep s = .next t.drainCpu := by
  simp [cpuStep, hp, h]

end Sys2Proof.Machine
end

