-- ==== Sys2Proof/Laws/Words.lean ====
section
/-! SUPPORT. The words that the statements write as numbers are the formats of the encoder, the frame relations hold of
the plain writes, and where no host move lands the core's tick is the step. -/

namespace Sys2Proof.Claims

open Sys2Proof.Machine

theorem wordA_eq (t : BitVec 4) (nnn : Addr12) : wordA t.toNat nnn = formatA t nnn := by
  apply BitVec.eq_of_toNat_eq
  have := t.isLt
  have := nnn.isLt
  rw [toNat_formatA, wordA, BitVec.toNat_ofNat]
  omega

theorem wordXK_eq (t : BitVec 4) (x : Reg) (kk : Byte) : wordXK t.toNat x kk.toNat = formatXK t x kk := by
  apply BitVec.eq_of_toNat_eq
  have := t.isLt
  have := x.isLt
  have := kk.isLt
  rw [toNat_formatXK, wordXK, BitVec.toNat_ofNat]
  omega

theorem wordXY_eq (t : BitVec 4) (x y : Reg) (n : BitVec 4) : wordXY t.toNat x y n.toNat = formatXY t x y n := by
  apply BitVec.eq_of_toNat_eq
  have := t.isLt
  have := x.isLt
  have := y.isLt
  have := n.isLt
  rw [toNat_formatXY, wordXY, BitVec.toNat_ofNat]
  omega

/-- A register write writes that register alone. -/
theorem writesOnlyRegs_setReg (s : State) (x : Reg) (b : Byte) : WritesOnlyRegs [x] s (s.setReg x b) :=
  ⟨fun r hr => by simp [List.mem_singleton.not.mp hr], rfl, fun _ => rfl⟩

/-- Flag and result write x and VF alone. -/
theorem writesOnlyRegs_writeBoth (s : State) (x : Reg) (res flag : Byte) :
    WritesOnlyRegs [x, VF] s (writeBoth s x res flag) := by
  refine ⟨fun r hr => ?_, writeBoth_eq .., by rw [writeBoth_eq]; exact fun _ => rfl⟩
  obtain ⟨h1, h2⟩ : r ≠ x ∧ r ≠ VF := by simpa using hr
  rw [reg_writeBoth]
  cases s.params.flagOrder <;> simp [h1, h2]

/-- The two statements flag-then-result write x and VF alone. -/
theorem writesOnlyRegs_flagThenResult (s : State) (x : Reg) (flag res : State → Byte) :
    WritesOnlyRegs [x, VF] s (flagThenResult s x flag res) := by
  refine ⟨fun r hr => ?_, flagThenResult_eq .., by rw [flagThenResult_eq]; exact fun _ => rfl⟩
  obtain ⟨h1, h2⟩ : r ≠ x ∧ r ≠ VF := by simpa using hr
  rw [reg_flagThenResult]
  cases s.params.flagOrder <;> simp [h1, h2]

/-- A write of pc writes nothing else. -/
theorem writesOnlyPc_setPc (s : State) (w : Word) : WritesOnlyPc s (s.setPc w) := ⟨rfl, fun _ => rfl⟩

/-- A conditional skip writes pc alone. -/
theorem writesOnlyPc_skipIf (s : State) (c : Bool) : WritesOnlyPc s (s.skipIf c) := by
  rw [State.skipIf_eq]
  exact writesOnlyPc_setPc ..

/-- A write of I writes nothing else. -/
theorem writesOnlyI_setI (s : State) (w : Word) : WritesOnlyI s (s.setI w) := ⟨rfl, fun _ => rfl⟩

/-- Where no host move lands, the core moves, and its tick leaves `rest` pending. -/
theorem turn_of_pendingAfterTick {s : State} {rest : List HostMove} (hr : s.status = .running)
    (hp : pendingAfterTick s.pending = some rest) :
    turn s = coreTurn s ∧ s.popLetRun = { s with pending := rest } := by
  unfold turn State.popLetRun
  rw [if_pos hr]
  cases h : s.pending with
  | nil => rw [h] at hp; cases hp; exact ⟨rfl, by simp only [← h]⟩
  | cons m moves =>
    rw [h] at hp
    cases m with
    | elapsed delta => cases hp; exact ⟨rfl, by simp only [← h]⟩
    | letRun => cases hp; exact ⟨rfl, rfl⟩
    | setKey k p => cases hp
    | pull => cases hp
    | quit => cases hp

/-- Where no host move lands and a CPU tick is due alone, the step is that tick and its drain. -/
theorem step_of_cpuTickRuns {s : State} {rest : List HostMove} (h : CpuTickRuns s rest) :
    step s = match cpuTick { s with pending := rest } with
      | .next t => .next t.drainCpu
      | .fault f => .fault f
      | .refused r => .refused r := by
  obtain ⟨hr, hp, ht, hc⟩ := h
  obtain ⟨h1, h2⟩ := turn_of_pendingAfterTick hr hp
  rw [step_eq, h1, coreTurn_cpu ht hc]
  show cpuStep s = _
  rw [← h2]
  rfl

/-- Everything whose move may be next: nobody's in a halted machine, the host's where its move lands, else the core's. -/
theorem turn_cases (s : State) :
    (s.status ≠ .running ∧ turn s = .halted) ∨
    (s.status = .running ∧
      ∃ m rest, s.pending = m :: rest ∧ pendingAfterTick s.pending = none ∧ turn s = .host m rest) ∨
    (s.status = .running ∧ ∃ rest, pendingAfterTick s.pending = some rest ∧ turn s = coreTurn s) := by
  by_cases hr : s.status = .running
  · right
    cases h : pendingAfterTick s.pending with
    | some rest => exact .inr ⟨hr, rest, rfl, (turn_of_pendingAfterTick hr h).1⟩
    | none =>
      refine .inl ⟨hr, ?_⟩
      unfold turn
      rw [if_pos hr]
      cases hp : s.pending with
      | nil => rw [hp] at h; cases h
      | cons m moves =>
        rw [hp] at h
        cases m <;> first | exact ⟨_, _, rfl, rfl, rfl⟩ | cases h
  · exact .inl ⟨hr, by simp [turn, hr]⟩

end Sys2Proof.Claims
end

