-- ==== Sys2Proof/Tests/Slice0.lean ====
section
/-! SUPPORT. Tests. Expected results are those of spec/95_test_vectors.md (sections named V1 to V2.11 below) or worked by
hand from the rule named; every test runs at most one step. The last part has, for each obligation with hypotheses, a
witness that meets them. -/

namespace Sys2Proof.Tests

open Sys2Proof.Machine Sys2Proof.Claims

/-! ## Helpers -/

/-- The default parameters with the illustrative waveform of V2.10, for a flag order and an ExA1 option. -/
def params (o : FlagOrder) (e : Bool) : Params :=
  { cpuHz := 700, stackCapacity := 16, fontBase := 0x050, fontData := Params.defaultFont, flagOrder := o,
    enableExA1 := e, timeGrain := 1,
    waveform := { sampleRate := 8, toneNum := 2, toneDen := 1, amplitude := 100, durNum := 1, durDen := 1,
                  sampleBits := 8 } }

/-- Initialised machines: Sequential, FlagLast, and Sequential with ExA1. -/
def sq : State := State.initial (params .sequential false)
def fl : State := State.initial (params .flagLast false)
def xa : State := State.initial (params .sequential true)

/-- The answer is a next state with a property. -/
def goes (o : Host.Outcome State Fault Refusal) (p : State → Bool) : Bool :=
  match o with
  | .next t => p t
  | .fault _ => false
  | .refused _ => false

/-- The next state of an answer, the given one where there is none. -/
def after (o : Host.Outcome State Fault Refusal) (d : State) : State :=
  match o with
  | .next t => t
  | .fault _ => d
  | .refused _ => d

/-- One step of `s` with the word `w` where it fetches. -/
def run1 (s : State) (w : Nat) (p : State → Bool) : Bool := goes (step (s.withFetchWord 16 w)) p

/-- A few bytes placed in memory. -/
def withBytes (s : State) (a : Nat) (bs : List Byte) : State := placeBytes s a bs

/-- How many pixels are set. -/
def lit (s : State) : Nat := (s.fb.toList.map fun row => (row.toList.filter id).length).sum

/-! ## Well-formedness -/

theorem test_sknp_is_ill_formed_without_exa1 : WellFormed false (.sknp 0x3) = false := by decide
theorem test_sknp_is_well_formed_with_exa1 : WellFormed true (.sknp 0x3) = true := by decide

/-! ## Decoding: every constructor, by a word written out from its pattern in 30_encoding.md R77 -/

theorem test_decode_display_and_flow :
    decode false 0b0000000011100000 = .ok .cls ∧ decode false 0b0000000011101110 = .ok .ret ∧
    decode false 0b0001101010111100 = .ok (.jp 0xABC) ∧ decode false 0b0010001100000001 = .ok (.call 0x301) ∧
    decode false 0b0011101000000010 = .ok (.seImm 0xA 0x02) ∧
    decode false 0b0100101011110010 = .ok (.sneImm 0xA 0xF2) ∧
    decode false 0b1001101010110000 = .ok (.sneReg 0xA 0xB) ∧
    decode false 0b1101000100100011 = .ok (.drw 0x1 0x2 0x3) := by decide

theorem test_decode_alu :
    decode false 0b0110101000000010 = .ok (.ldImm 0xA 0x02) ∧ decode false 0b0111101000000001 = .ok (.addImm 0xA 0x01) ∧
    decode false 0b1000000100100000 = .ok (.ldReg 0x1 0x2) ∧ decode false 0b1000000100100001 = .ok (.orReg 0x1 0x2) ∧
    decode false 0b1000000100100010 = .ok (.andReg 0x1 0x2) ∧ decode false 0b1000000100100011 = .ok (.xorReg 0x1 0x2) ∧
    decode false 0b1000000100100100 = .ok (.addReg 0x1 0x2) ∧ decode false 0b1000000100100101 = .ok (.sub 0x1 0x2) ∧
    decode false 0b1000000100100110 = .ok (.shr 0x1 0x2) ∧ decode false 0b1000000100100111 = .ok (.subn 0x1 0x2) ∧
    decode false 0b1000000100101110 = .ok (.shl 0x1 0x2) ∧ decode false 0b1100000111110000 = .ok (.rnd 0x1 0xF0) := by
  decide

theorem test_decode_index_keys_timers :
    decode false 0b1010111111111110 = .ok (.ldI 0xFFE) ∧ decode false 0b1110000110011110 = .ok (.skp 0x1) ∧
    decode true 0b1110000110100001 = .ok (.sknp 0x1) ∧ decode false 0b1111000100000111 = .ok (.ldVxDt 0x1) ∧
    decode false 0b1111000100001010 = .ok (.ldVxK 0x1) ∧ decode false 0b1111000100010101 = .ok (.ldDtVx 0x1) ∧
    decode false 0b1111000100011000 = .ok (.ldStVx 0x1) ∧ decode false 0b1111000100011110 = .ok (.addIVx 0x1) ∧
    decode false 0b1111000100101001 = .ok (.ldFVx 0x1) ∧ decode false 0b1111000100110011 = .ok (.ldBVx 0x1) ∧
    decode false 0b1111000101010101 = .ok (.ldMemVx 0x1) ∧ decode false 0b1111000101100101 = .ok (.ldVxMem 0x1) := by
  decide

/-- V2.1: words that decode to nothing. -/
theorem test_unknown_words :
    ([0x0000, 0x00E1, 0x00EF, 0x0123, 0x0FFF, 0x5000, 0x5120, 0x5FFF, 0x8128, 0x812D, 0x812F, 0x9121, 0x912F, 0xB000,
      0xB123, 0xE1A1, 0xE19F, 0xE100, 0xF100, 0xF108, 0xF130, 0xF175, 0xF1FF] : List Word).all
        (fun w => decode false w = .error (.unknownOpcode w)) = true := by decide

theorem test_table_word_reads_the_row : decodeTableWord 16 0xE0A1 = some (.sknp 0x0) := by decide

/-! ## The tick (V2.2, V2.9) -/

theorem test_fetch_at_odd_pc :
    run1 { sq with pc := 0x201 } 0x6207 (fun t => t.reg 2 = 0x07 ∧ t.pc = 0x203) = true := by decide

theorem test_tick_at_top_of_memory : run1 { sq with pc := 0xFFE } 0x00E0 (fun t => t.pc = 0x1000) = true := by decide

theorem test_fetch_fault_names_the_first_bad_address :
    goes (cpuTick { sq with pc := 0xFFF }) (fun t => t.status = .fatal (.outOfBoundsMemory 0x1000)) = true := by decide

theorem test_unknown_opcode_finishes :
    run1 { sq with pc := 0x300 } 0xB234 (fun t => t.status = .finished 0xB234 0x300 ∧ t.pc = 0x302) = true := by decide

/-! ## Control flow (V2.3) -/

theorem test_jp : run1 sq 0x1ABC (fun t => t.pc = 0xABC) = true := by decide
theorem test_call : run1 sq 0x2300 (fun t => t.stack = [0x202] ∧ t.sp = 1 ∧ t.pc = 0x300) = true := by decide
theorem test_call_at_capacity :
    run1 { sq with stack := List.replicate 16 0x202 } 0x2300
      (fun t => t.status = .fatal (.stackOverflow 0x202)) = true := by decide
theorem test_ret : run1 { sq with pc := 0x300, stack := [0x202, 0x204] } 0x00EE
    (fun t => t.stack = [0x204] ∧ t.pc = 0x202) = true := by decide
theorem test_ret_on_empty_stack :
    run1 { sq with pc := 0x300 } 0x00EE (fun t => t.status = .fatal (.stackUnderflow 0x302)) = true := by decide
theorem test_se_imm_skips : run1 (sq.setReg 0xA 0x02) 0x3A02 (fun t => t.pc = 0x204) = true := by decide
theorem test_se_imm_goes_on : run1 (sq.setReg 0xA 0x03) 0x3A02 (fun t => t.pc = 0x202) = true := by decide
theorem test_sne_imm_goes_on : run1 (sq.setReg 0xA 0x02) 0x4A02 (fun t => t.pc = 0x202) = true := by decide
theorem test_sne_imm_skips : run1 sq 0x4A02 (fun t => t.pc = 0x204) = true := by decide
theorem test_sne_reg_skips :
    run1 ((sq.setReg 0xA 1).setReg 0xB 2) 0x9AB0 (fun t => t.pc = 0x204) = true := by decide
theorem test_sne_reg_goes_on :
    run1 ((sq.setReg 0xA 1).setReg 0xB 1) 0x9AB0 (fun t => t.pc = 0x202) = true := by decide

/-! ## Register loads, arithmetic, logic, shifts, random (V2.4) -/

theorem test_ld_imm : run1 sq 0x6A02 (fun t => t.reg 0xA = 0x02) = true := by decide
theorem test_add_imm_wraps_without_carry :
    run1 ((sq.setReg 0xA 0xFF).setReg VF 0x55) 0x7A01 (fun t => t.reg 0xA = 0x00 ∧ t.reg VF = 0x55) = true := by decide
theorem test_ld_reg : run1 (sq.setReg 1 0x33) 0x8010 (fun t => t.reg 0 = 0x33) = true := by decide
theorem test_or : run1 (((sq.setReg 0 0x0C).setReg 1 0x0A).setReg VF 0x55) 0x8011
    (fun t => t.reg 0 = 0x0E ∧ t.reg VF = 0x55) = true := by decide
theorem test_and : run1 ((sq.setReg 0 0x0C).setReg 1 0x0A) 0x8012 (fun t => t.reg 0 = 0x08) = true := by decide
theorem test_xor : run1 ((sq.setReg 0 0x0C).setReg 1 0x0A) 0x8013 (fun t => t.reg 0 = 0x06) = true := by decide
theorem test_add_reg_wraps : run1 ((sq.setReg 0 0xFA).setReg 1 0x0A) 0x8014
    (fun t => t.reg 0 = 0x04 ∧ t.reg VF = 1) = true := by decide
theorem test_add_reg_into_vf :
    run1 ((sq.setReg VF 0x80).setReg 1 0x90) 0x8F14 (fun t => t.reg VF = 0x10) = true ∧
    run1 ((fl.setReg VF 0x80).setReg 1 0x90) 0x8F14 (fun t => t.reg VF = 0x01) = true := by decide
theorem test_sub_is_strict : run1 ((sq.setReg 0 0x07).setReg 1 0x07) 0x8015
    (fun t => t.reg 0 = 0x00 ∧ t.reg VF = 0) = true := by decide
theorem test_sub_with_vf_as_source :
    run1 ((sq.setReg 0 0x05).setReg VF 0x03) 0x80F5 (fun t => t.reg 0 = 0x04 ∧ t.reg VF = 1) = true ∧
    run1 ((fl.setReg 0 0x05).setReg VF 0x03) 0x80F5 (fun t => t.reg 0 = 0x02 ∧ t.reg VF = 1) = true := by decide
theorem test_shr_ignores_y : run1 ((sq.setReg 0 0x04).setReg 1 0x99) 0x8016
    (fun t => t.reg 0 = 0x02 ∧ t.reg VF = 0) = true := by decide
theorem test_shr_of_vf :
    run1 (sq.setReg VF 0xFF) 0x8F06 (fun t => t.reg VF = 0x00) = true ∧
    run1 (fl.setReg VF 0xFF) 0x8F06 (fun t => t.reg VF = 0x01) = true := by decide
theorem test_subn : run1 ((sq.setReg 0 0x05).setReg 1 0x03) 0x8017
    (fun t => t.reg 0 = 0xFE ∧ t.reg VF = 0) = true := by decide
theorem test_subn_into_vf :
    run1 ((sq.setReg VF 0x03).setReg 1 0x05) 0x8F17 (fun t => t.reg VF = 0x04) = true ∧
    run1 ((fl.setReg VF 0x03).setReg 1 0x05) 0x8F17 (fun t => t.reg VF = 0x01) = true := by decide
theorem test_shl : run1 (sq.setReg 0 0x81) 0x800E (fun t => t.reg 0 = 0x02 ∧ t.reg VF = 1) = true := by decide
theorem test_shl_of_vf :
    run1 (sq.setReg VF 0x81) 0x8F0E (fun t => t.reg VF = 0x02) = true ∧
    run1 (fl.setReg VF 0x81) 0x8F0E (fun t => t.reg VF = 0x01) = true := by decide
/-- The draw is free, so the test is that pc advances and that one free value is taken. -/
theorem test_rnd_takes_a_draw : run1 sq 0xC0FF (fun t => t.pc = 0x202 ∧ t.free = 1) = true := by decide

/-! ## Index register and memory blocks (V2.5) -/

theorem test_ld_i : run1 sq 0xAFFF (fun t => t.i = 0x0FFF) = true := by decide
theorem test_add_i_does_not_check_the_range :
    run1 ({ sq with i := 0xFFF }.setReg 0 0xFF) 0xF01E (fun t => t.i = 0x10FE ∧ t.reg VF = 0) = true := by decide
theorem test_add_i_wraps : run1 ({ sq with i := 0xFFFF }.setReg 0 1) 0xF01E (fun t => t.i = 0x0000) = true := by decide
theorem test_ld_f : run1 (sq.setReg 0xA 0x0B) 0xFA29 (fun t => t.i = 0x087) = true := by decide
theorem test_ld_f_refuses_a_non_digit :
    run1 (sq.setReg 0 0x10) 0xF029 (fun t => t.status = .refused (.fontDigitOutOfRange 0x10)) = true := by decide
theorem test_ld_b : run1 ({ sq with i := 0x300 }.setReg 0 0x9C) 0xF033
    (fun t => t.peek 0x300 = 1 ∧ t.peek 0x301 = 5 ∧ t.peek 0x302 = 6 ∧ t.i = 0x300) = true := by decide
theorem test_ld_b_past_memory : run1 { sq with i := 0xFFE } 0xF033
    (fun t => t.status = .fatal (.outOfBoundsMemory 0x1000)) = true := by decide
theorem test_ld_mem : run1 ((({ sq with i := 0x300 }.setReg 0 1).setReg 1 2).setReg 2 3) 0xF255
    (fun t => t.peek 0x300 = 1 ∧ t.peek 0x301 = 2 ∧ t.peek 0x302 = 3 ∧ t.peek 0x303 = 0 ∧ t.i = 0x303) = true := by decide
theorem test_ld_mem_past_memory : run1 { sq with i := 0xFFE } 0xF255
    (fun t => t.status = .fatal (.outOfBoundsMemory 0x1000)) = true := by decide
theorem test_ld_vx_mem : run1 (withBytes { sq with i := 0x300 } 0x300 [2, 5, 4, 9]) 0xF265
    (fun t => t.reg 0 = 2 ∧ t.reg 1 = 5 ∧ t.reg 2 = 4 ∧ t.reg 3 = 0 ∧ t.i = 0x303) = true := by decide
theorem test_ld_vx_mem_above_memory : run1 { sq with i := 0x10FE } 0xF065
    (fun t => t.status = .fatal (.outOfBoundsMemory 0x10FE)) = true := by decide

/-! ## Display (V2.6) -/

theorem test_cls : run1 { sq with fb := setPixel blankFrame 3 4 true } 0x00E0 (fun t => lit t = 0) = true := by decide
theorem test_drw_wraps_both_ways :
    run1 (withBytes (({ sq with i := 0x300 }.setReg 0 62).setReg 1 31) 0x300 [0xC0, 0x81]) 0xD012
      (fun t => t.frame 62 31 && t.frame 63 31 && t.frame 62 0 && t.frame 5 0 && lit t == 4 && t.reg VF == 0) = true := by
  decide
theorem test_drw_collides_and_reads_vf_before_reset :
    run1 (withBytes ({ sq with i := 0x300, fb := setPixel blankFrame 5 0 true }.setReg VF 0x05) 0x300 [0x80]) 0xDF01
      (fun t => lit t == 0 && t.reg VF == 1) = true := by decide

/-! ## Keys and timers (V2.7) -/

theorem test_skp : run1 ((setKey 7 true sq).setReg 3 7) 0xE39E (fun t => t.pc = 0x204) = true := by decide
theorem test_skp_refuses : run1 (sq.setReg 3 0x10) 0xE39E
    (fun t => t.status = .refused (.keyIndexOutOfRange 0x10)) = true := by decide
theorem test_sknp : run1 ((setKey 7 true xa).setReg 3 7) 0xE3A1 (fun t => t.pc = 0x202) = true := by decide
theorem test_sknp_is_unknown_by_default :
    goes (cpuTick (withBytes sq 0x200 [0xE3, 0xA1])) (fun t => t.status = .finished 0xE3A1 0x200) = true := by decide
theorem test_ld_vx_dt : run1 { sq with dt := 0x2A } 0xF507 (fun t => t.reg 5 = 0x2A) = true := by decide
theorem test_ld_vx_k_takes_the_lowest : run1 (setKey 9 true (setKey 2 true { sq with pc := 0x300 })) 0xF30A
    (fun t => t.reg 3 = 2 ∧ t.pc = 0x302) = true := by decide
theorem test_ld_vx_k_waits : run1 { sq with pc := 0x300 } 0xF30A (fun t => t.pc = 0x300 ∧ t.reg 3 = 0) = true := by decide
theorem test_ld_dt : run1 (sq.setReg 0 0x3C) 0xF015 (fun t => t.dt = 60) = true := by decide
theorem test_ld_st : run1 (sq.setReg 1 0x02) 0xF118 (fun t => t.st = 2 ∧ t.playing = false) = true := by decide

/-! ## Scheduler, sound, initialisation (V2.8, V2.10, V2.11, 60_exceptions.md R262) -/

theorem test_periods : (params .sequential false).timerPeriod = 35 ∧ (params .sequential false).cpuPeriod = 3 := by decide
theorem test_timer_tick_raises_playing :
    (timerTick { sq with st := 2, dt := 3 }).playing = true ∧ (timerTick { sq with st := 2, dt := 3 }).st = 1 ∧
    (timerTick { sq with st := 2, dt := 3 }).dt = 2 ∧ (timerTick { sq with playing := true }).playing = false := by decide
theorem test_waveform : sq.wave = [100, 100, -100, -100, 100, 100, -100, -100] := by decide
theorem test_pull_wraps :
    (pullWith true { sq with cursor := 7 }).cursor = 0 ∧ (pullWith true { sq with cursor := 7 }).lastSample = -100 ∧
    (pullWith false { sq with cursor := 3 }).cursor = 3 := by decide
theorem test_boot :
    (match boot (params .sequential false) (some [0x12, 0x00, 0xAB]) with
     | .ok t => t.peek 0x202 == 0xAB && t.peek 0x203 == 0 && t.peek 0x050 == 0xF0 && t.peek 0x09F == 0x80 &&
         t.pc == 0x200
     | .error _ => false) = true := by decide
theorem test_host_key : hostKey 'w' = some 5 ∧ hostKey 'v' = some 0xF ∧ hostKey 'p' = none := by decide

/-! ## Witnesses: for each obligation with hypotheses, values that meet them -/

theorem test_witness_DecodeOfEncodeIsTheInstruction :
    WellFormed true (.sknp 0xF) = true ∧ WellFormed false (.drw 0xF 0xF 0xF) = true := by decide
theorem test_witness_EncodeOfDecodeIsTheWord :
    decode true 0xEFA1 = .ok (.sknp 0xF) ∧ decode false 0x8FFE = .ok (.shl 0xF 0xF) := by decide
theorem test_witness_ReadAfterWriteGivesTheByte : 4095 < 4096 ∧ 4094 ≠ 4095 := by decide
theorem test_witness_AccessesOutsideMemoryFault :
    memRead sq 4095 = .ok 0 ∧ memRead sq 4096 = .error (.outOfBoundsMemory 4096) := ⟨rfl, rfl⟩
theorem test_witness_FetchReadsTwoBytesOrFaults :
    ({ sq with pc := 4094 } : State).pc.toNat + 1 < 4096 ∧ ({ sq with pc := 4095 } : State).pc.toNat = 4095 ∧
    ({ sq with pc := 4096 } : State).pc.toNat ≥ 4096 ∧
    fetch { sq with pc := 4096 } = .error (.outOfBoundsMemory 4096) := ⟨by decide, by decide, by decide, rfl⟩

/-- A machine about to run 6A02. -/
def ready : State := { sq with mem := [(0x200, 0x6A), (0x201, 0x02)], accCpu := 3 }

/-- A CPU tick runs with nothing pending, with elapsed time waiting, and at a silent boundary. -/
theorem test_witness_CpuTickRuns :
    CpuTickRuns ready [] ∧ CpuTickRuns { ready with pending := [.elapsed 1, .pull] } [.elapsed 1, .pull] ∧
    CpuTickRuns { ready with pending := [.letRun, .quit] } [.quit] :=
  ⟨⟨by decide, rfl, by decide, by decide⟩, ⟨by decide, rfl, by decide, by decide⟩, ⟨by decide, rfl, by decide, by decide⟩⟩

/-- Each clause's premises: a next state, a fetch fault, an unknown word, an instruction's fault, both refusals. -/
theorem test_witness_StepRunsTheDecodedInstruction :
    (cpuTick { ready with pending := [] } = .next { ready with pc := 0x202, v := (ready.setReg 0xA 0x02).v } ∧
      fetch ready = .ok 0x6A02 ∧ decode ready.params.enableExA1 0x6A02 = .ok (.ldImm 0xA 0x02) ∧
      exec (.ldImm 0xA 0x02) { ready with pc := ready.pc + 2#16, pending := [] } =
        .next (({ ready with pc := ready.pc + 2#16 } : State).setReg 0xA 0x02)) ∧
    fetch { ready with pc := 0xFFF } = .error (.outOfBoundsMemory 0x1000) ∧
    (fetch { ready with pc := 0x300 } = .ok 0x0000 ∧ decode false 0x0000 = .error (.unknownOpcode 0x0000)) ∧
    (fetch { ready with mem := [(0x201, 0xEE)] } = .ok 0x00EE ∧ decode false 0x00EE = .ok .ret ∧
      exec .ret { ready with mem := [(0x201, 0xEE)], pc := 0x202#16, pending := [] } = .fault (.stackUnderflow 0x202)) ∧
    (fetch { ready.setReg 3 0x10 with mem := [(0x200, 0xE3), (0x201, 0x9E)] } = .ok 0xE39E ∧
      decode false 0xE39E = .ok (.skp 3) ∧
      exec (.skp 3) { ready.setReg 3 0x10 with mem := [(0x200, 0xE3), (0x201, 0x9E)], pc := 0x202#16, pending := [] } =
        .refused (.keyIndexOutOfRange 0x10)) ∧
    (fetch { ready.setReg 3 0x10 with mem := [(0x200, 0xF3), (0x201, 0x29)] } = .ok 0xF329 ∧
      decode false 0xF329 = .ok (.ldFVx 3) ∧
      exec (.ldFVx 3) { ready.setReg 3 0x10 with mem := [(0x200, 0xF3), (0x201, 0x29)], pc := 0x202#16, pending := [] } =
        .refused (.fontDigitOutOfRange 0x10)) :=
  ⟨⟨rfl, rfl, rfl, rfl⟩, rfl, ⟨rfl, rfl⟩, ⟨rfl, rfl, rfl⟩, ⟨rfl, rfl, rfl⟩, ⟨rfl, rfl, rfl⟩⟩

/-- Each end that EveryStepAnswersAState speaks of is the status after some step. -/
theorem test_witness_EveryStepAnswersAState :
    goes (step { ready with pc := 0xFFF }) (fun t => t.status = .fatal (.outOfBoundsMemory 0x1000)) = true ∧
    goes (step { ready with pc := 0x300 }) (fun t => t.status = .finished 0x0000 0x300) = true ∧
    run1 (sq.setReg 3 0x10) 0xE39E (fun t => t.status = .refused (.keyIndexOutOfRange 0x10)) = true ∧
    run1 (sq.setReg 3 0x10) 0xF329 (fun t => t.status = .refused (.fontDigitOutOfRange 0x10)) = true ∧
    goes (step ready) (fun t => t.status = .running) = true := by decide
theorem test_witness_UnknownOpcodeFinishesTheRun :
    fetch (sq.withFetchWord 16 0x5000) = .ok 0x5000 ∧ decode false 0x5000 = .error (.unknownOpcode 0x5000) :=
  ⟨rfl, rfl⟩
theorem test_witness_FatalErrorsAreRecordedInStatus :
    fetch (sq.withFetchWord 16 0x00EE) = .ok 0x00EE ∧ decode false 0x00EE = .ok .ret ∧
    exec .ret { sq.withFetchWord 16 0x00EE with pc := 0x202#16 } = .fault (.stackUnderflow 0x202) := ⟨rfl, rfl, rfl⟩
theorem test_witness_RefusedTicksWriteOnlyStatus :
    fetch ((sq.setReg 3 0x10).withFetchWord 16 0xE39E) = .ok 0xE39E ∧ decode false 0xE39E = .ok (.skp 3) ∧
    exec (.skp 3) { (sq.setReg 3 0x10).withFetchWord 16 0xE39E with pc := 0x202#16 } =
      .refused (.keyIndexOutOfRange 0x10) ∧
    fetch ((sq.setReg 3 0xFF).withFetchWord 16 0xF329) = .ok 0xF329 ∧ decode false 0xF329 = .ok (.ldFVx 3) ∧
    exec (.ldFVx 3) { (sq.setReg 3 0xFF).withFetchWord 16 0xF329 with pc := 0x202#16 } =
      .refused (.fontDigitOutOfRange 0xFF) := ⟨rfl, rfl, rfl, rfl, rfl, rfl⟩
theorem test_witness_HaltedMachineKeepsItsState :
    ({ sq with status := .quit } : State).status ≠ .running ∧
    ({ sq with status := .fatal (.outOfBoundsMemory 4096) } : State).status ≠ .running := by decide
theorem test_witness_StepKeepsTheInvariant :
    Machine.Inv ready ∧ step ready = .next (after (step ready) ready) ∧
    Machine.Inv { ready with pc := 4098, stack := [4096] } :=
  ⟨⟨by decide, by decide, fun _ => ⟨by decide, (fun _ h => nomatch h), by decide, rfl, by decide, by decide⟩⟩, rfl,
    ⟨by decide, by decide, fun _ => ⟨by decide, (fun _ h => by rw [List.mem_singleton.mp h]; decide), by decide, rfl,
      by decide, by decide⟩⟩⟩
theorem test_witness_StepKeepsTheParameters : step ready = .next (after (step ready) ready) := rfl
theorem test_witness_InitialValues : (params .sequential false).legal ∧ (params .flagLast true).legal := by decide
theorem test_witness_RomLoadPlacesTheImage :
    (params .sequential false).legal ∧ 1 ≤ (List.replicate 1 (0 : Byte)).length ∧
    (List.replicate 3584 (0 : Byte)).length ≤ 3584 :=
  ⟨by decide, by decide, Nat.le_of_eq List.length_replicate⟩
theorem test_witness_RomLoadFailures : 4096 - 0x200 < (List.replicate 3585 (0 : Byte)).length := by
  rw [List.length_replicate]; decide

/-- Both flag orders, and a destination other than VF. -/
theorem test_witness_AddWritesSumAndCarry :
    sq.params.flagOrder = .sequential ∧ fl.params.flagOrder = .flagLast ∧ (0xE : Reg) ≠ VF := by decide
theorem test_witness_SubtractWritesDifferenceAndFlag :
    (1#8 = if ((sq.setReg 0 5).reg 0).toNat > ((sq.setReg 0 5).reg 1).toNat then 1#8 else 0#8) ∧
    (0#8 = if (fl.reg 0).toNat > (fl.reg 1).toNat then 1#8 else 0#8) ∧ fl.params.flagOrder = .flagLast ∧
    (0x0 : Reg) ≠ VF := by decide
theorem test_witness_ReverseSubtractWritesDifferenceAndFlag :
    (1#8 = if ((sq.setReg 1 5).reg 1).toNat > ((sq.setReg 1 5).reg 0).toNat then 1#8 else 0#8) ∧
    (0#8 = if (fl.reg 1).toNat > (fl.reg 0).toNat then 1#8 else 0#8) ∧ fl.params.flagOrder = .flagLast ∧
    (0x0 : Reg) ≠ VF := by decide
theorem test_witness_ShiftRightWritesHalfAndFlag :
    (1#8).toNat = ((sq.setReg 0 5).reg 0).toNat % 2 ∧ (0#8).toNat = (fl.reg 0).toNat % 2 ∧
    fl.params.flagOrder = .flagLast ∧ (0x0 : Reg) ≠ VF := by decide
theorem test_witness_ShiftLeftWritesDoubleAndFlag :
    (1#8).toNat = ((sq.setReg 0 0x80).reg 0).toNat / 128 ∧ (0#8).toNat = ((fl.setReg 0 0x7F).reg 0).toNat / 128 ∧
    fl.params.flagOrder = .flagLast ∧ (0x0 : Reg) ≠ VF := by decide
theorem test_witness_CopyRegisterWritesTheRegister : (0x3 : Reg) = 0x3 := rfl
theorem test_witness_JumpSetsPc : (0xFFF : Addr12).toNat = 0xFFF := by decide
theorem test_witness_CallPushesAndJumpsOrOverflows :
    ({ sq with stack := List.replicate 15 0 } : State).stack.length < sq.params.stackCapacity ∧
    ({ sq with stack := List.replicate 16 0 } : State).stack.length = sq.params.stackCapacity := by decide
theorem test_witness_ReturnPopsOrUnderflows :
    ({ sq with stack := [0x1000] } : State).stack = 0x1000 :: [] ∧ sq.stack = [] := by decide
theorem test_witness_ReturnUndoesCall :
    exec (.call 0x300) sq = .next { sq with stack := [0x200], pc := 0x300 } ∧
    ({ fl with stack := [0x200] } : State).stack = ({ sq with stack := [0x200], pc := 0x300 } : State).stack ∧
    exec .ret { fl with stack := [0x200] } = .next { fl with stack := [], pc := 0x200 } := ⟨rfl, rfl, rfl⟩
theorem test_witness_SkipsOnRegistersThatDiffer : 0 < 1 ∧ 15 < 16 ∧ (0xF : Reg) = 0xF := by decide
theorem test_witness_GlyphAddressOrRefused :
    sq.params.legal ∧ ((sq.setReg 0 0xF).reg 0).toNat ≤ 0xF ∧ ((sq.setReg 0 0x10).reg 0).toNat > 0xF := by decide
theorem test_witness_StoreDecimalDigits :
    ({ sq with i := 0xFFD } : State).i.toNat + 2 < 4096 ∧ ({ sq with i := 0xFFE } : State).i.toNat + 2 ≥ 4096 := by decide
theorem test_witness_StoreRegistersToMemory :
    ({ sq with i := 0xFF0 } : State).i.toNat + (0xF : Reg).toNat < 4096 ∧
    ({ sq with i := 0xFF1 } : State).i.toNat + (0xF : Reg).toNat ≥ 4096 ∧ (0xF : Reg).toNat ≤ (0xF : Reg).toNat := by decide
theorem test_witness_LoadRegistersFromMemory :
    ({ sq with i := 0xFFF } : State).i.toNat + (0x0 : Reg).toNat < 4096 ∧
    ({ sq with i := 0x1000 } : State).i.toNat + (0x0 : Reg).toNat ≥ 4096 ∧ (0x0 : Reg).toNat < (0x1 : Reg).toNat := by decide

/-- A clear screen, and a screen with pixel (0, 0) set; the sprite byte 0x80 at 0x300. -/
def canvas : State := withBytes { sq with i := 0x300 } 0x300 [0x80]
def dotted : State := { canvas with fb := setPixel blankFrame 0 0 true }

theorem test_canvas_is_blank (px py : Nat) : canvas.frame px py = false := by
  show pixelAt blankFrame px py = false
  simp [pixelAt, blankFrame]

theorem test_witness_SpriteCovers : SpriteCovers canvas 0 0 1 0 0 :=
  ⟨0, 0, by decide, by decide, by decide, by decide, by decide⟩
theorem test_witness_DrawXorsTheSprite :
    ({ sq with i := 0xFFFF } : State).i.toNat + (1 : BitVec 4).toNat > 4096 ∧ (0 : BitVec 4).toNat = 0 ∧
    ({ sq with i := 0xFFF } : State).i.toNat + (1 : BitVec 4).toNat ≤ 4096 ∧
    (dotted.frame 0 0 = true ∧ SpriteCovers dotted 0 0 1 0 0) ∧
    (∀ px py, px < 64 → py < 32 → canvas.frame px py = true → ¬SpriteCovers canvas 0 0 1 px py) := by
  refine ⟨by decide, by decide, by decide, ⟨by decide, 0, 0, by decide, by decide, by decide, by decide, by decide⟩, ?_⟩
  intro px py _ _ h
  rw [test_canvas_is_blank] at h
  cases h
theorem test_witness_DrawingTwiceRestoresThePixels :
    exec (.drw 0 1 1) canvas = .next (after (exec (.drw 0 1 1) canvas) canvas) ∧
    (after (exec (.drw 0 1 1) canvas) canvas).i = canvas.i ∧
    (∀ r, r < (1 : BitVec 4).toNat →
      (after (exec (.drw 0 1 1) canvas) canvas).peek (canvas.i.toNat + r) = canvas.peek (canvas.i.toNat + r)) ∧
    (after (exec (.drw 0 1 1) canvas) canvas).reg 0 = canvas.reg 0 ∧
    (after (exec (.drw 0 1 1) canvas) canvas).reg 1 = canvas.reg 1 ∧
    exec (.drw 0 1 1) (after (exec (.drw 0 1 1) canvas) canvas) =
      .next (after (exec (.drw 0 1 1) (after (exec (.drw 0 1 1) canvas) canvas)) canvas) ∧
    (∀ px py, canvas.frame px py = false) ∧ (∃ r < (1 : BitVec 4).toNat, canvas.peek (canvas.i.toNat + r) ≠ 0#8) :=
  ⟨rfl, rfl, fun _ _ => rfl, by decide, by decide, rfl, test_canvas_is_blank, by decide⟩
/-- For SkipsOnPressedKey and SkipsOnReleasedKey. -/
theorem test_witness_SkipsOnPressedKey :
    ((sq.setReg 3 0xF).reg 3).toNat = (15 : Fin 16).val ∧ ((sq.setReg 3 0x10).reg 3).toNat > 0xF := by decide
theorem test_witness_WaitForKeyLoadsTheLeastOrRewinds :
    (setKey 15 true sq).isPressed 15 = true ∧
    (∀ j : Fin 16, j < 15 → (setKey 15 true sq).isPressed j = false) ∧ (∀ k : Fin 16, sq.isPressed k = false) := by decide
theorem test_witness_OnlyDestinationsAreWritten :
    exec (.addImm 0xA 1) sq = .next (sq.setReg 0xA 1) ∧ VF ∉ destinations (.addImm 0xA 1) ∧
    exec (.ldVxMem 0x2) sq = .next (after (exec (.ldVxMem 0x2) sq) sq) ∧ (0x3 : Reg) ∉ destinations (.ldVxMem 0x2) :=
  ⟨rfl, by decide, rfl, by decide⟩
theorem test_witness_OnlyStoresChangeMemory :
    exec (.drw 0 0 5) sq = .next (after (exec (.drw 0 0 5) sq) sq) ∧ stores (.drw 0 0 5) = false := ⟨rfl, rfl⟩
theorem test_witness_InstructionsLeaveTheControlState :
    exec (.ldStVx 0) sq = .next { sq with st := 0 } := rfl
theorem test_witness_EachResourceHasItsWriters :
    exec (.ldI 0x300) sq = .next (sq.setI 0x300) ∧ (sq.setI 0x300).i ≠ sq.i ∧
    exec (.call 0x300) sq = .next { sq with stack := [0x200], pc := 0x300 } ∧
    exec (.ldDtVx 0) (sq.setReg 0 1) = .next { sq.setReg 0 1 with dt := 1 } ∧
    exec (.ldStVx 0) (sq.setReg 0 1) = .next { sq.setReg 0 1 with st := 1 } ∧
    exec .cls dotted = .next canvas ∧ dotted.frame 0 0 ≠ canvas.frame 0 0 :=
  ⟨rfl, by decide, rfl, rfl, rfl, rfl, by decide⟩
theorem test_witness_TimerTicksRunFirst :
    ({ sq with accTimer := 35, accCpu := 35, pending := [.letRun, .pull] } : State).status = .running ∧
    pendingAfterTick [.letRun, .pull] = some [.pull] ∧ pendingAfterTick [.elapsed 0] = some [.elapsed 0] ∧
    pendingAfterTick [] = some [] ∧ sq.params.timerPeriod ≤ 35 := by decide
theorem test_witness_IterationIsItsSteps :
    sq.params.legal ∧ ({ sq with pending := [.elapsed 35] } : State).status = .running ∧
    ({ sq with accTimer := 34, accCpu := 2, pending := [.elapsed 35] } : State).accTimer < sq.params.timerPeriod ∧
    ({ sq with accTimer := 34, accCpu := 2, pending := [.elapsed 35] } : State).accCpu < sq.params.cpuPeriod := by decide

/-- A machine at a jump to itself. -/
def looping : State := withBytes sq 0x200 [0x12, 0x00]

theorem test_witness_TickCountsDependOnTotalTime :
    looping.params.legal ∧ looping.accTimer = 0 ∧ looping.accCpu = 0 ∧ looping.pending = [] ∧
    (iterateRunning [1, 2] looping).map (fun r => (r.1, r.2.1)) = some (0, 1) := by decide
theorem test_witness_HostEventsLandBetweenTicks :
    ({ sq with pending := [.setKey 15 true] } : State).status = .running ∧
    ({ sq with pending := [.setKey 15 true] } : State).pending = .setKey 15 true :: [] ∧
    ({ sq with pending := [.quit, .pull] } : State).pending = .quit :: [.pull] ∧ (14 : Fin 16) ≠ 15 ∧
    ({ sq with pending := [.pull] } : State).pending = .pull :: [] ∧
    ({ sq with pending := [.elapsed 35] } : State).pending = .elapsed 35 :: [] ∧
    sq.accTimer < sq.params.timerPeriod ∧ sq.accCpu < sq.params.cpuPeriod := by decide
theorem test_witness_PullAnswersSampleOrSilence :
    ({ sq with cursor := 7 } : State).cursor < sq.wave.length ∧
    readPlaying { sq with cursor := 7, heldPrev := Held.only true, heldCur := Held.only true } = true ∧
    readPlaying { sq with cursor := 7 } = false ∧ 7 + 1 = sq.wave.length := by decide
theorem test_witness_StaleReadsAreBounded :
    (if sq.playing then sq.heldCur.high = true else sq.heldCur.low = true) ∧
    readPlaying { sq with playing := true, heldPrev := Held.only true, heldCur := Held.only true } = true ∧
    readPlaying sq = false ∧ sq.heldPrev = Held.only sq.playing ∧ sq.heldCur = Held.only sq.playing := by decide
theorem test_witness_WaveformIsASquareWave :
    (params .sequential false).waveform.legal ∧ 7 < (synthWave (params .sequential false).waveform).length := by decide

end Sys2Proof.Tests
end

section
/-! PROOFS. Memory (20_memory.md): what a read gives after a byte has been placed. -/

namespace Sys2Proof.Machine

theorem memRead_poke_same {s : State} {a : Nat} (v : Byte) (ha : a < memSize) :
    memRead (s.poke a v) a = .ok v := by
  rw [memRead_ok ha, State.peek_poke, if_pos rfl]

/-- Holds on both sides of the bound: outside memory both reads raise the same fault. -/
theorem memRead_poke_of_ne (s : State) {a b : Nat} (v : Byte) (hne : b ≠ a) :
    memRead (s.poke a v) b = memRead s b := by
  rcases Nat.lt_or_ge b memSize with hb | hb
  · rw [memRead_ok hb, memRead_ok hb, State.peek_poke, if_neg hne]
  · rw [memRead_error hb, memRead_error hb]

/-- Settles O5: below 4096 a write is `poke`, so the two laws of a read after `poke` give the bytes, and `poke` writes
the memory field alone. -/
theorem readAfterWriteGivesTheByte : Obligations.ReadAfterWriteGivesTheByte := by
  intro s a v ha
  exact ⟨s.poke a v, memWrite_ok ha, memRead_poke_same v ha, fun _ hne => memRead_poke_of_ne s v hne, rfl⟩

end Sys2Proof.Machine
end

section
/-! PROOFS. The CPU tick (40_execute_cycle.md): the fetched word as a number, the two ways a fetch faults, and the end of
a tick on an unknown word. -/

namespace Sys2Proof.Machine

theorem toNat_combine (hi lo : Byte) : (combine hi lo).toNat = hi.toNat * 256 + lo.toNat := by
  rw [combine, BitVec.toNat_append, ← Nat.shiftLeft_add_eq_or_of_lt lo.isLt, Nat.shiftLeft_eq]

/-- The first byte read is already outside memory. -/
theorem fetch_error_of_outside {s : State} (h : memSize ≤ s.pc.toNat) :
    fetch s = .error (.outOfBoundsMemory s.pc.toNat) := by
  rw [fetch, memRead_error h]

/-- The first byte is the last of memory, so only the second read faults. -/
theorem fetch_error_at_last {s : State} (h : s.pc.toNat + 1 = memSize) :
    fetch s = .error (.outOfBoundsMemory (s.pc.toNat + 1)) := by
  simp only [fetch, memRead_ok (show s.pc.toNat < memSize by omega), memRead_error h.ge]

/-- An unknown word writes pc and status alone. -/
theorem State.advanced_finish (s : State) (op a : Word) :
    s.advanced.finish op a = { s with pc := s.pc + 2#16, status := .finished op a } := rfl

/-- Settles O7: each range of pc by the rule of the fetch in that range, and a fetch fault by what it makes of the tick. -/
theorem fetchReadsTwoBytesOrFaults : Obligations.FetchReadsTwoBytesOrFaults := by
  intro s
  refine ⟨fun hin => ⟨_, fetch_ok hin, toNat_combine _ _⟩, fetch_error_of_outside, fun hlast => ?_, fun f hf => ?_⟩
  · exact fetch_error_at_last (congrArg (· + 1) hlast)
  · exact ⟨s.raise f, cpuTick_of_fault hf, State.raise_status s f⟩

/-- Settles O9: the tick is the advanced state finished with the word and its address. -/
theorem unknownOpcodeFinishesTheRun : Obligations.UnknownOpcodeFinishesTheRun := by
  intro s op e hfetch hdecode
  rw [cpuTick_of_unknown hfetch hdecode, State.advanced_finish]

end Sys2Proof.Machine
end

section
/-! PROOFS. Control flow (41_flow.md): the decoder on the encoder's formats, and what jumps, calls, returns and skips
answer. -/

namespace Sys2Proof

/-! ## Decoding -/

/-- Decoding the word of an instruction gives it back, row by row of the encoder's formats (30_encoding.md R75, R77). -/
theorem decode_encode {e : Bool} {i : Instr} (h : WellFormed e i = true) : decode e (encode i) = .ok i := by
  cases i with
  | cls | ret => rfl
  | jp nnn | call nnn | ldI nnn =>
    simp only [encode, decode, fields_formatA]
    rfl
  | seImm x kk | sneImm x kk | ldImm x kk | addImm x kk | rnd x kk =>
    simp only [encode, decode, fields_formatXK]
    rfl
  | ldReg x y | orReg x y | andReg x y | xorReg x y | addReg x y | sub x y | shr x y | subn x y | shl x y =>
    simp only [encode, decode, decodeEight, fields_formatXY]
    rfl
  | sneReg x y | drw x y n =>
    simp only [encode, decode, decodeNine, fields_formatXY]
    rfl
  | skp x =>
    simp only [encode, decode, decodeE, fields_formatXK]
    rfl
  | sknp x =>
    obtain rfl : e = true := h
    simp only [encode, decode, decodeE, fields_formatXK]
    rfl
  | ldVxDt x | ldVxK x | ldDtVx x | ldStVx x | addIVx x | ldFVx x | ldBVx x | ldMemVx x | ldVxMem x =>
    simp only [encode, decode, decodeF, fields_formatXK]
    rfl

/-- For a word that a statement writes as a number, by the law that ties it to the encoder's format. -/
theorem decode_of_eq_encode {e : Bool} {i : Instr} {op : Word} (hop : op = encode i) (h : WellFormed e i = true) :
    decode e op = .ok i := by
  rw [hop, decode_encode h]

/-- No row has the top nibble 5 (41_flow.md R125). -/
theorem decode_formatXY_five (e : Bool) (x y : Reg) (n : BitVec 4) :
    decode e (formatXY 0x5 x y n) = .error (.unknownOpcode (formatXY 0x5 x y n)) := by
  simp only [decode, fields_formatXY]
  rfl

theorem decode_formatXY_nine_of_ne (e : Bool) (x y : Reg) {n : BitVec 4} (hn : n ≠ 0#4) :
    decode e (formatXY 0x9 x y n) = .error (.unknownOpcode (formatXY 0x9 x y n)) := by
  simp only [decode, decodeNine, fields_formatXY, if_neg hn]
  rfl

end Sys2Proof

namespace Sys2Proof.Claims

open Sys2Proof.Machine

/-- The word of a statement whose last digit is any number below 16. -/
theorem wordXY_eq_of_lt (t : BitVec 4) (x y : Reg) {n : Nat} (hn : n < 16) :
    wordXY t.toNat x y n = formatXY t x y (BitVec.ofNat 4 n) := by
  rw [← wordXY_eq, BitVec.toNat_ofNat, Nat.mod_eq_of_lt hn]

/-! ## What the instructions answer -/

theorem toNat_absolute (nnn : Addr12) : (absolute nnn).toNat = nnn.toNat :=
  BitVec.toNat_setWidth_of_le (by decide)

theorem exec_jp (nnn : Addr12) (s : State) : exec (.jp nnn) s = .next (s.setPc (absolute nnn)) := rfl

theorem exec_call_of_lt {nnn : Addr12} {s : State} (h : s.stack.length < s.params.stackCapacity) :
    exec (.call nnn) s = .next (State.setPc { s with stack := s.pc :: s.stack } (absolute nnn)) := by
  have hpush : push s s.pc = .ok { s with stack := s.pc :: s.stack } := if_neg (Nat.not_le.mpr h)
  simp only [exec, execCall, hpush]

theorem exec_call_of_full {nnn : Addr12} {s : State} (h : s.params.stackCapacity ≤ s.stack.length) :
    exec (.call nnn) s = .fault (.stackOverflow s.pc) := by
  have hpush : push s s.pc = .error (.stackOverflow s.pc) := if_pos h
  simp only [exec, execCall, hpush]

theorem exec_ret_of_cons {s : State} {a : Word} {rest : List Word} (h : s.stack = a :: rest) :
    exec .ret s = .next (State.setPc { s with stack := rest } a) := by
  simp only [exec, execRet, pop, h]

theorem exec_ret_of_nil {s : State} (h : s.stack = []) : exec .ret s = .fault (.stackUnderflow s.pc) := by
  simp only [exec, execRet, pop, h]

theorem exec_seImm (x : Reg) (kk : Byte) (s : State) :
    exec (.seImm x kk) s = .next (s.skipIf (decide (s.reg x = kk))) := rfl

theorem exec_sneImm (x : Reg) (kk : Byte) (s : State) :
    exec (.sneImm x kk) s = .next (s.skipIf (decide (s.reg x ≠ kk))) := rfl

theorem exec_sneReg (x y : Reg) (s : State) :
    exec (.sneReg x y) s = .next (s.skipIf (decide (s.reg x ≠ s.reg y))) := rfl

/-- The skip of 40_execute_cycle.md R108 under a decided condition. -/
theorem skipIf_decide_pc (s : State) (p : Prop) [Decidable p] :
    (s.skipIf (decide p)).pc = if p then s.pc + 2#16 else s.pc := by
  simp [State.skipIf_eq]

theorem skipIf_decide_not_pc (s : State) (p : Prop) [Decidable p] :
    (s.skipIf (decide ¬p)).pc = if p then s.pc else s.pc + 2#16 := by
  rw [skipIf_decide_pc, ite_not]

/-! ## The obligations -/

/-- Settles O30: the jump is one write of pc, and at 0xFFF only the second byte of the next fetch is outside memory. -/
theorem jumpSetsPc : Obligations.JumpSetsPc := by
  intro e nnn s
  have hpc : (s.setPc (absolute nnn)).pc.toNat = nnn.toNat := toNat_absolute nnn
  refine ⟨decode_of_eq_encode (wordA_eq 0x1 nnn) rfl, _, exec_jp nnn s, hpc, writesOnlyPc_setPc .., fun hlast => ?_⟩
  rw [fetch_error_at_last (by rw [hpc, hlast]; rfl), hpc, hlast]

/-- Settles O31, by the two sides of the capacity. -/
theorem callPushesAndJumpsOrOverflows : Obligations.CallPushesAndJumpsOrOverflows := by
  intro e nnn s
  refine ⟨decode_of_eq_encode (wordA_eq 0x2 nnn) rfl, fun hlt => ?_, fun hfull => exec_call_of_full hfull.ge⟩
  exact ⟨_, exec_call_of_lt hlt, rfl, toNat_absolute nnn, rfl, fun _ => rfl⟩

/-- Settles O32, by whether the stack holds an entry. -/
theorem returnPopsOrUnderflows : Obligations.ReturnPopsOrUnderflows := by
  intro e s
  refine ⟨rfl, fun a rest hstack => ?_, exec_ret_of_nil⟩
  exact ⟨_, exec_ret_of_cons hstack, rfl, rfl, rfl, fun _ => rfl⟩

/-- Settles O34: both instructions are the conditional skip, 4xkk on the negated condition. -/
theorem skipsOnImmediate : Obligations.SkipsOnImmediate := by
  intro e x kk s
  constructor
  · exact ⟨decode_of_eq_encode (wordXK_eq 0x3 x kk) rfl, _, exec_seImm x kk s, skipIf_decide_pc ..,
      writesOnlyPc_skipIf ..⟩
  · exact ⟨decode_of_eq_encode (wordXK_eq 0x4 x kk) rfl, _, exec_sneImm x kk s, skipIf_decide_not_pc ..,
      writesOnlyPc_skipIf ..⟩

/-- Settles O35: the decoder's row 9 asks for the last digit 0 and it has no row 5; the instruction is the conditional
skip, whose condition cannot hold of one register against itself. -/
theorem skipsOnRegistersThatDiffer : Obligations.SkipsOnRegistersThatDiffer := by
  intro e x y s
  refine ⟨decode_of_eq_encode (wordXY_eq 0x9 x y 0x0) rfl, fun n hpos hn => ?_, fun n hn => ?_, _, exec_sneReg x y s,
    skipIf_decide_not_pc .., writesOnlyPc_skipIf .., fun hxy => ?_⟩
  · have hne : BitVec.ofNat 4 n ≠ 0#4 := by
      rw [Ne, ← BitVec.toNat_inj, BitVec.toNat_ofNat, BitVec.toNat_ofNat]
      omega
    rw [show wordXY 0x9 x y n = _ from wordXY_eq_of_lt 0x9 x y hn, decode_formatXY_nine_of_ne e x y hne]
  · rw [show wordXY 0x5 x y n = _ from wordXY_eq_of_lt 0x5 x y hn, decode_formatXY_five]
  · subst hxy
    simp [State.skipIf]

end Sys2Proof.Claims
end

section
/-! PROOFS. Register loads, arithmetic, logic and shifts (42_alu.md): the byte operations and the flags as numbers, what
flag and result leave in x and in VF under each order of P_FLAG_ORDER, and what the instructions answer. -/

namespace Sys2Proof.Machine

/-! ## Flags and byte operations as numbers -/

theorem carryFlag_eq (a b : Byte) : carryFlag a b = if a.toNat + b.toNat > 255 then 1#8 else 0#8 := by
  simp [carryFlag, flagByte]

theorem greaterFlag_eq (a b : Byte) : greaterFlag a b = if a.toNat > b.toNat then 1#8 else 0#8 := by
  simp [greaterFlag, flagByte]

theorem toNat_flagByte (c : Bool) : (flagByte c).toNat = c.toNat := by
  cases c <;> rfl

theorem toNat_lowBitFlag (a : Byte) : (lowBitFlag a).toNat = a.toNat % 2 := by
  rw [lowBitFlag, toNat_flagByte, BitVec.getLsbD, Nat.toNat_testBit, Nat.pow_zero, Nat.div_one]

/-- Bit 7 is the last bit of a byte, so it is all that is left above the other seven. -/
theorem toNat_highBitFlag (a : Byte) : (highBitFlag a).toNat = a.toNat / 128 := by
  have hbit : (a.getLsbD 7).toNat = a.toNat / 128 % 2 := Nat.toNat_testBit ..
  have := a.isLt
  rw [highBitFlag, toNat_flagByte, hbit]
  omega

theorem toNat_byte_sub (a b : Byte) : (a - b).toNat = (a.toNat + 256 - b.toNat) % 256 := by
  have := b.isLt
  rw [BitVec.toNat_sub]
  omega

theorem toNat_byte_shiftRight_one (a : Byte) : (a >>> (1 : Nat)).toNat = a.toNat / 2 := by
  rw [BitVec.toNat_ushiftRight, Nat.shiftRight_one]

theorem toNat_byte_shiftLeft_one (a : Byte) : (a <<< (1 : Nat)).toNat = a.toNat * 2 % 256 := by
  rw [BitVec.toNat_shiftLeft, Nat.shiftLeft_eq, Nat.pow_one]

/-! ## Register writes -/

theorem State.reg_setReg_same (s : State) (x : Reg) (b : Byte) : (s.setReg x b).reg x = b := by
  rw [State.reg_setReg, if_pos rfl]

theorem State.setReg_reg_same (s : State) (x : Reg) : s.setReg x (s.reg x) = s := by
  simp [State.setReg, State.reg]

/-! ## What the instructions answer -/

theorem exec_ldImm (x : Reg) (kk : Byte) (s : State) : exec (.ldImm x kk) s = .next (s.setReg x kk) := rfl

theorem exec_addImm (x : Reg) (kk : Byte) (s : State) :
    exec (.addImm x kk) s = .next (s.setReg x (s.reg x + kk)) := rfl

theorem exec_ldReg (x y : Reg) (s : State) : exec (.ldReg x y) s = .next (s.setReg x (s.reg y)) := rfl

theorem exec_orReg (x y : Reg) (s : State) : exec (.orReg x y) s = .next (s.setReg x (s.reg x ||| s.reg y)) := rfl

theorem exec_andReg (x y : Reg) (s : State) : exec (.andReg x y) s = .next (s.setReg x (s.reg x &&& s.reg y)) := rfl

theorem exec_xorReg (x y : Reg) (s : State) : exec (.xorReg x y) s = .next (s.setReg x (s.reg x ^^^ s.reg y)) := rfl

theorem exec_addReg (x y : Reg) (s : State) :
    exec (.addReg x y) s = .next (writeBoth s x (s.reg x + s.reg y) (carryFlag (s.reg x) (s.reg y))) := rfl

theorem exec_sub (x y : Reg) (s : State) :
    exec (.sub x y) s =
      .next (flagThenResult s x (fun r => greaterFlag (r.reg x) (r.reg y)) fun r => r.reg x - r.reg y) := rfl

theorem exec_shr (x y : Reg) (s : State) :
    exec (.shr x y) s =
      .next (flagThenResult s x (fun r => lowBitFlag (r.reg x)) fun r => r.reg x >>> (1 : Nat)) := rfl

theorem exec_subn (x y : Reg) (s : State) :
    exec (.subn x y) s =
      .next (flagThenResult s x (fun r => greaterFlag (r.reg y) (r.reg x)) fun r => r.reg y - r.reg x) := rfl

theorem exec_shl (x y : Reg) (s : State) :
    exec (.shl x y) s =
      .next (flagThenResult s x (fun r => highBitFlag (r.reg x)) fun r => r.reg x <<< (1 : Nat)) := rfl

end Sys2Proof.Machine

namespace Sys2Proof.Claims

open Sys2Proof.Machine

/-! ## Flag and result in the order of P_FLAG_ORDER (42_alu.md R139) -/

/-- The registers that the second statement reads under Sequential. -/
theorem reg_setReg_VF (s : State) (f : Byte) : (s.setReg VF f).reg = regAfterFlag s f :=
  funext fun r => State.reg_setReg s VF r f

/-- Flag and result from the old operands are the two statements that read nothing back. -/
theorem writeBoth_eq_flagThenResult (s : State) (x : Reg) (res flag : Byte) :
    writeBoth s x res flag = flagThenResult s x (fun _ => flag) fun _ => res := rfl

/-- The two statements flag-then-result, for a result that is the number `value` of the registers it reads: those after
the flag write under Sequential, the old ones under FlagLast. The write that comes last stays, also where x is VF. -/
theorem flagThenResult_orders (s : State) (x : Reg) (flag res : State → Byte) {f : Byte} (hf : flag s = f)
    (value : (Reg → Byte) → Nat) (hres : ∀ r : State, (res r).toNat = value r.reg) :
    (s.params.flagOrder = .sequential →
      ((flagThenResult s x flag res).reg x).toNat = value (regAfterFlag s f) ∧
      (x ≠ VF → (flagThenResult s x flag res).reg VF = f)) ∧
    (s.params.flagOrder = .flagLast →
      (flagThenResult s x flag res).reg VF = f ∧
      (x ≠ VF → ((flagThenResult s x flag res).reg x).toNat = value s.reg)) := by
  constructor
  · intro h
    simp only [reg_flagThenResult, h, hf, if_true]
    exact ⟨by rw [hres, reg_setReg_VF], fun hx => if_neg hx.symm⟩
  · intro h
    simp only [reg_flagThenResult, h, hf, if_true]
    exact ⟨trivial, fun hx => by rw [if_neg hx, hres]⟩

/-! ## The obligations -/

/-- Settles O20: the instruction is one register write. -/
theorem loadImmediateWritesTheRegister : Obligations.LoadImmediateWritesTheRegister := by
  intro e x kk s
  exact ⟨decode_of_eq_encode (wordXK_eq 0x6 x kk) rfl, _, exec_ldImm x kk s, State.reg_setReg_same ..,
    writesOnlyRegs_setReg ..⟩

/-- Settles O21: the instruction is one register write of a sum of bytes, which wraps by itself. -/
theorem addImmediateWrapsWithoutCarry : Obligations.AddImmediateWrapsWithoutCarry := by
  intro e x kk s
  refine ⟨decode_of_eq_encode (wordXK_eq 0x7 x kk) rfl, _, exec_addImm x kk s, ?_, writesOnlyRegs_setReg ..⟩
  rw [State.reg_setReg_same, BitVec.toNat_add]

/-- Settles O22: writing a register's own value back leaves the state. -/
theorem copyRegisterWritesTheRegister : Obligations.CopyRegisterWritesTheRegister := by
  intro e x y s
  refine ⟨decode_of_eq_encode (wordXY_eq 0x8 x y 0x0) rfl, _, exec_ldReg x y s, State.reg_setReg_same ..,
    writesOnlyRegs_setReg .., fun hxy => ?_⟩
  rw [← hxy, State.setReg_reg_same]

/-- Settles O23: each instruction is one register write, and the bits of its value are the library's laws. -/
theorem bitwiseOperationsWriteTheRegister : Obligations.BitwiseOperationsWriteTheRegister := by
  intro e x y s
  refine ⟨⟨decode_of_eq_encode (wordXY_eq 0x8 x y 0x1) rfl, _, exec_orReg x y s, writesOnlyRegs_setReg .., ?_⟩,
    ⟨decode_of_eq_encode (wordXY_eq 0x8 x y 0x2) rfl, _, exec_andReg x y s, writesOnlyRegs_setReg .., ?_⟩,
    ⟨decode_of_eq_encode (wordXY_eq 0x8 x y 0x3) rfl, _, exec_xorReg x y s, writesOnlyRegs_setReg .., ?_⟩⟩
  · intro k
    rw [State.reg_setReg_same, BitVec.getLsbD_or]
  · intro k
    rw [State.reg_setReg_same, BitVec.getLsbD_and]
  · intro k
    rw [State.reg_setReg_same, BitVec.getLsbD_xor]

/-- Settles O24: the law of flag-then-result, where neither the carry nor the sum reads what has been written. -/
theorem addWritesSumAndCarry : Obligations.AddWritesSumAndCarry := by
  intro e x y s
  refine ⟨decode_of_eq_encode (wordXY_eq 0x8 x y 0x4) rfl, _, exec_addReg x y s, writesOnlyRegs_writeBoth .., ?_⟩
  rw [writeBoth_eq_flagThenResult]
  exact flagThenResult_orders s x _ _ (carryFlag_eq ..) (fun _ => ((s.reg x).toNat + (s.reg y).toNat) % 256)
    fun _ => BitVec.toNat_add ..

/-- Settles O25: the law of flag-then-result, with the difference as a number. -/
theorem subtractWritesDifferenceAndFlag : Obligations.SubtractWritesDifferenceAndFlag := by
  intro e x y s f hf
  exact ⟨decode_of_eq_encode (wordXY_eq 0x8 x y 0x5) rfl, _, exec_sub x y s, writesOnlyRegs_flagThenResult ..,
    flagThenResult_orders s x _ _ ((greaterFlag_eq ..).trans hf.symm)
      (fun reg => ((reg x).toNat + 256 - (reg y).toNat) % 256) fun _ => toNat_byte_sub ..⟩

/-- Settles O26: the law of flag-then-result, with the operands exchanged. -/
theorem reverseSubtractWritesDifferenceAndFlag : Obligations.ReverseSubtractWritesDifferenceAndFlag := by
  intro e x y s f hf
  exact ⟨decode_of_eq_encode (wordXY_eq 0x8 x y 0x7) rfl, _, exec_subn x y s, writesOnlyRegs_flagThenResult ..,
    flagThenResult_orders s x _ _ ((greaterFlag_eq ..).trans hf.symm)
      (fun reg => ((reg y).toNat + 256 - (reg x).toNat) % 256) fun _ => toNat_byte_sub ..⟩

/-- Settles O27: the law of flag-then-result; the flag is determined by its number. -/
theorem shiftRightWritesHalfAndFlag : Obligations.ShiftRightWritesHalfAndFlag := by
  intro e x y s f hf
  exact ⟨decode_of_eq_encode (wordXY_eq 0x8 x y 0x6) rfl, _, exec_shr x y s, writesOnlyRegs_flagThenResult ..,
    flagThenResult_orders s x _ _ (BitVec.eq_of_toNat_eq ((toNat_lowBitFlag _).trans hf.symm))
      (fun reg => (reg x).toNat / 2) fun _ => toNat_byte_shiftRight_one _⟩

/-- Settles O28: the law of flag-then-result; the flag is determined by its number. -/
theorem shiftLeftWritesDoubleAndFlag : Obligations.ShiftLeftWritesDoubleAndFlag := by
  intro e x y s f hf
  exact ⟨decode_of_eq_encode (wordXY_eq 0x8 x y 0xE) rfl, _, exec_shl x y s, writesOnlyRegs_flagThenResult ..,
    flagThenResult_orders s x _ _ (BitVec.eq_of_toNat_eq ((toNat_highBitFlag _).trans hf.symm))
      (fun reg => (reg x).toNat * 2 % 256) fun _ => toNat_byte_shiftLeft_one _⟩

end Sys2Proof.Claims
end

section
/-! PROOFS. The index register and memory blocks (43_index_memory.md): what a row of bytes placed in memory or in the
registers leaves behind, and what the instructions answer. -/

namespace Sys2Proof.Machine

/-! ## Rows of bytes in memory and in the registers -/

theorem State.peek_placeBytes_add (s : State) (a : Nat) (bs : List Byte) {k : Nat} (hk : k < bs.length) :
    (placeBytes s a bs).peek (a + k) = bs.getD k 0#8 := by
  rw [State.peek_placeBytes, if_pos ⟨Nat.le_add_right a k, Nat.add_lt_add_left hk a⟩, Nat.add_sub_cancel_left]

theorem sameBytesOutside_placeBytes (s : State) (a : Nat) (bs : List Byte) :
    SameBytesOutside a bs.length s (placeBytes s a bs) := by
  intro b hb
  rw [State.peek_placeBytes, if_neg (by omega)]

/-- Filling from V[0] on writes exactly as many registers as there are bytes. -/
theorem State.reg_fillRegs_zero (s : State) (bs : List Byte) (r : Reg) :
    State.reg { s with v := fillRegs s.v 0 bs } r = if r.toNat < bs.length then bs.getD r.toNat 0#8 else s.reg r := by
  simp only [State.reg, getElem_fillRegs, Nat.zero_le, true_and, Nat.zero_add, Nat.sub_zero]

/-! ## Operands as numbers -/

/-- Nothing is cut: the hundreds of a byte are at most 2 (43_index_memory.md R173). -/
theorem bcdDigits_map_toNat (b : Byte) :
    (bcdDigits b).map BitVec.toNat = [b.toNat / 100, b.toNat / 10 % 10, b.toNat % 10] := by
  have := b.isLt
  simp only [bcdDigits, List.map_cons, List.map_nil, BitVec.toNat_ofNat, List.cons.injEq, and_true]
  omega

/-- The post-increment wraps as one addition (43_index_memory.md R174, R175). -/
theorem State.toNat_pastRange (s : State) (x : Reg) :
    (s.pastRange x).toNat = (s.i.toNat + x.toNat + 1) % 65536 := by
  rw [State.pastRange, BitVec.toNat_add, BitVec.toNat_ofNat, Nat.add_mod_mod, Nat.add_assoc]

/-! ## What the instructions answer -/

theorem exec_ldI (nnn : Addr12) (s : State) : exec (.ldI nnn) s = .next (s.setI (absolute nnn)) := rfl

theorem exec_addIVx (x : Reg) (s : State) :
    exec (.addIVx x) s = .next (s.setI (s.i + (s.reg x).setWidth 16)) := rfl

theorem exec_ldFVx_of_digit {x : Reg} {s : State} (h : (s.reg x).toNat < 16) :
    exec (.ldFVx x) s = .next (s.setI (BitVec.ofNat 16 (s.params.fontBase + 5 * (s.reg x).toNat))) := by
  simp only [exec, execLdFVx, glyphAddress, if_pos h]

theorem exec_ldFVx_of_not_digit {x : Reg} {s : State} (h : ¬(s.reg x).toNat < 16) :
    exec (.ldFVx x) s = .refused (.fontDigitOutOfRange (s.reg x)) := by
  simp only [exec, execLdFVx, glyphAddress, if_neg h]

theorem exec_ldBVx_of_inside {x : Reg} {s : State} (h : s.i.toNat + 3 ≤ memSize) :
    exec (.ldBVx x) s = .next (placeBytes s s.i.toNat (bcdDigits (s.reg x))) := by
  have hstore : storeBytes s (s.indirect 0) (bcdDigits (s.reg x)) = .ok _ := storeBytes_ok (.inr h)
  rw [exec, execLdBVx, hstore]
  rfl

theorem exec_ldBVx_of_outside {x : Reg} {s : State} (h : memSize < s.i.toNat + 3) :
    exec (.ldBVx x) s = .fault (.outOfBoundsMemory (max s.i.toNat memSize)) := by
  have hstore : storeBytes s (s.indirect 0) (bcdDigits (s.reg x)) = .error _ :=
    storeBytes_error (List.cons_ne_nil _ _) h
  rw [exec, execLdBVx, hstore]
  rfl

theorem exec_ldVxMem_of_inside {x : Reg} {s : State} (h : s.i.toNat + (x.toNat + 1) ≤ memSize) :
    exec (.ldVxMem x) s =
      .next (State.setI
        { s with v := fillRegs s.v 0 ((List.range (x.toNat + 1)).map fun k => s.peek (s.i.toNat + k)) }
        (s.pastRange x)) := by
  have hload : loadBytes s (s.indirect 0) (x.toNat + 1) = .ok _ := loadBytes_ok (.inr h)
  simp only [exec, execLdVxMem, hload]
  rfl

theorem exec_ldVxMem_of_outside {x : Reg} {s : State} (h : memSize < s.i.toNat + (x.toNat + 1)) :
    exec (.ldVxMem x) s = .fault (.outOfBoundsMemory (max s.i.toNat memSize)) := by
  have hload : loadBytes s (s.indirect 0) (x.toNat + 1) = .error _ := loadBytes_error (Nat.succ_ne_zero _) h
  simp only [exec, execLdVxMem, hload]
  rfl

end Sys2Proof.Machine

namespace Sys2Proof.Claims

open Sys2Proof.Machine

/-! ## The obligations -/

/-- Settles O39: the store of the row of three digits, on the two sides of the end of memory. -/
theorem storeDecimalDigits : Obligations.StoreDecimalDigits := by
  intro e x s
  refine ⟨decode_of_eq_encode (wordXK_eq 0xF x 0x33) rfl, fun hin => ?_, fun hout => ?_⟩
  · have hdigit (k : Nat) (hk : k < 3) :
        ((placeBytes s s.i.toNat (bcdDigits (s.reg x))).peek (s.i.toNat + k)).toNat =
          [(s.reg x).toNat / 100, (s.reg x).toNat / 10 % 10, (s.reg x).toNat % 10].getD k 0 := by
      rw [State.peek_placeBytes_add s _ _ hk, ← bcdDigits_map_toNat]
      exact (List.getD_map _ _ _).symm
    exact ⟨_, exec_ldBVx_of_inside hin, hdigit 0 (by decide), hdigit 1 (by decide), hdigit 2 (by decide),
      sameBytesOutside_placeBytes s _ (bcdDigits (s.reg x)), State.placeBytes_eq ..⟩
  · exact exec_ldBVx_of_outside (Nat.lt_succ_of_le hout)

/-- Settles O41: the load of the row of x + 1 bytes, on the two sides of the end of memory. -/
theorem loadRegistersFromMemory : Obligations.LoadRegistersFromMemory := by
  intro e x s
  refine ⟨decode_of_eq_encode (wordXK_eq 0xF x 0x65) rfl, fun hin => ?_, fun hout => ?_⟩
  · refine ⟨_, exec_ldVxMem_of_inside hin, fun r hr => ?_, fun r hr => ?_, State.toNat_pastRange s x, rfl,
      fun _ => rfl⟩
    · have hlt : r.toNat < x.toNat + 1 := Nat.lt_succ_of_le hr
      simp [State.reg_fillRegs_zero, hlt]
    · have hge : ¬r.toNat < x.toNat + 1 := Nat.not_lt.mpr hr
      simp [State.reg_fillRegs_zero, hge]
  · exact exec_ldVxMem_of_outside (Nat.lt_succ_of_le hout)

/-- Settles O36: the instruction is one write of I. -/
theorem loadIndexSetsI : Obligations.LoadIndexSetsI := by
  intro e nnn s
  exact ⟨decode_of_eq_encode (wordA_eq 0xA nnn) rfl, _, exec_ldI nnn s, toNat_absolute nnn, writesOnlyI_setI ..⟩

/-- Settles O37: the instruction is one write of I, of a sum of words, which wraps by itself. -/
theorem addToIndexWraps : Obligations.AddToIndexWraps := by
  intro e x s
  refine ⟨decode_of_eq_encode (wordXK_eq 0xF x 0x1E) rfl, _, exec_addIVx x s, ?_, writesOnlyI_setI ..⟩
  rw [State.setI_i, BitVec.toNat_add, BitVec.toNat_setWidth_of_le (by decide)]

/-- Settles O38: below 16 the instruction is one write of I, and a legal font lies below 0x200, so that the address of
the glyph is a word. -/
theorem glyphAddressOrRefused : Obligations.GlyphAddressOrRefused := by
  intro e x s hlegal
  obtain ⟨-, -, hfont, -⟩ := hlegal
  refine ⟨decode_of_eq_encode (wordXK_eq 0xF x 0x29) rfl, fun hle => ?_, fun hgt => ?_⟩
  · refine ⟨_, exec_ldFVx_of_digit (Nat.lt_succ_of_le hle), ?_, writesOnlyI_setI ..⟩
    rw [State.setI_i, BitVec.toNat_ofNat, Nat.mod_eq_of_lt (by omega)]
  · exact exec_ldFVx_of_not_digit (Nat.not_lt.mpr hgt)

end Sys2Proof.Claims
end

section
/-! PROOFS. The display (44_display.md): what the clear answers. -/

namespace Sys2Proof.Machine

/-! ## What the instructions answer -/

theorem exec_cls (s : State) : exec .cls s = .next { s with fb := blankFrame } := rfl

end Sys2Proof.Machine

namespace Sys2Proof.Claims

open Sys2Proof.Machine

/-! ## The obligations -/

/-- Settles O42: the instruction is one write of the frame buffer, of the blank frame, whose pixels are all clear. -/
theorem clearZeroesEveryPixel : Obligations.ClearZeroesEveryPixel := by
  intro e s
  exact ⟨decode_encode (i := .cls) rfl, _, exec_cls s, fun px py _ _ => pixelAt_blankFrame px py, rfl, fun _ => rfl⟩

end Sys2Proof.Claims
end

section
/-! PROOFS. Keys and timers (45_timers_keys.md): the key that a byte names, and what the key test and the timer moves
answer. -/

namespace Sys2Proof.Machine

/-! ## The key that a byte names -/

theorem keyIndex_of_toNat_eq {b : Byte} {k : Fin 16} (h : b.toNat = k.val) : keyIndex b = some k := by
  rw [keyIndex, dif_pos (h ▸ k.isLt)]
  exact congrArg some (Fin.ext h)

theorem keyIndex_of_gt {b : Byte} (h : b.toNat > 0xF) : keyIndex b = none :=
  dif_neg (Nat.not_lt.mpr h)

/-! ## What the instructions answer -/

theorem exec_skp_of_key {x : Reg} {s : State} {k : Fin 16} (h : (s.reg x).toNat = k.val) :
    exec (.skp x) s = .next (s.skipIf (s.isPressed k)) := by
  simp only [exec, execSkp, keyIndex_of_toNat_eq h]

theorem exec_skp_of_gt {x : Reg} {s : State} (h : (s.reg x).toNat > 0xF) :
    exec (.skp x) s = .refused (.keyIndexOutOfRange (s.reg x)) := by
  simp only [exec, execSkp, keyIndex_of_gt h]

theorem exec_ldVxDt (x : Reg) (s : State) : exec (.ldVxDt x) s = .next (s.setReg x s.dt) := rfl

theorem exec_ldDtVx (x : Reg) (s : State) : exec (.ldDtVx x) s = .next { s with dt := s.reg x } := rfl

theorem exec_ldStVx (x : Reg) (s : State) : exec (.ldStVx x) s = .next { s with st := s.reg x } := rfl

end Sys2Proof.Machine

namespace Sys2Proof.Claims

open Sys2Proof.Machine

/-! ## The obligations -/

/-- Settles O45: on a key number the instruction is the conditional skip on that key's level, and above F the byte names
no key. -/
theorem skipsOnPressedKey : Obligations.SkipsOnPressedKey := by
  intro e x s
  refine ⟨decode_of_eq_encode (wordXK_eq 0xE x 0x9E) rfl, fun k hk => ?_, exec_skp_of_gt⟩
  exact ⟨_, exec_skp_of_key hk, congrArg State.pc (s.skipIf_eq _), writesOnlyPc_skipIf ..⟩

/-- Settles O47: Fx07 is one register write; Fx15 and Fx18 are one write of the timer's field. -/
theorem timerMovesCopyTheByte : Obligations.TimerMovesCopyTheByte := by
  intro e x s
  refine ⟨?_, ?_, ?_⟩
  · exact ⟨decode_of_eq_encode (wordXK_eq 0xF x 0x07) rfl, _, exec_ldVxDt x s, State.reg_setReg_same ..,
      writesOnlyRegs_setReg ..⟩
  · exact ⟨decode_of_eq_encode (wordXK_eq 0xF x 0x15) rfl, _, exec_ldDtVx x s, rfl, rfl, fun _ => rfl⟩
  · exact ⟨decode_of_eq_encode (wordXK_eq 0xF x 0x18) rfl, _, exec_ldStVx x s, rfl, rfl, fun _ => rfl⟩

end Sys2Proof.Claims
end

section
/-! PROOFS. The timers and `playing` (60_exceptions.md): what one timer tick writes. -/

namespace Sys2Proof.Machine

/-! ## The timer tick -/

theorem timerTick_playing (s : State) : (timerTick s).playing = decide (s.st ≠ 0#8) := rfl

/-- A tick raises `playing` exactly when it finds ST above 0 (R243). -/
theorem timerTick_playing_iff (s : State) : (timerTick s).playing = true ↔ s.st.toNat > 0 := by
  have hst : s.st ≠ 0#8 ↔ s.st.toNat > 0 := by bv_omega
  rw [timerTick_playing, decide_eq_true_iff, hst]

/-- A tick writes the two timers, `playing` and the values `playing` held, nothing else. -/
theorem timerTick_frame (s : State) :
    timerTick s = { s with dt := (timerTick s).dt, st := (timerTick s).st, playing := (timerTick s).playing,
                           heldCur := (timerTick s).heldCur } := rfl

end Sys2Proof.Machine

namespace Sys2Proof.Claims

open Sys2Proof.Machine

/-! ## The obligations -/

/-- Settles O53: both timers are counted down by the one operation, which stops at 0, and `playing` is written from the
test of ST. -/
theorem timerTickCountsDown : Obligations.TimerTickCountsDown := by
  intro s
  exact ⟨countDown_toNat s.dt, countDown_toNat s.st, timerTick_playing_iff s, timerTick_frame s⟩

end Sys2Proof.Claims
end

section
/-! PROOFS. Encoding (30_encoding.md): the words that each row of the decoder accepts and those that it rejects. -/

namespace Sys2Proof

/-! ## A word is assembled from its fields where some of them are known -/

theorem formatA_of_top {op : Word} {t : BitVec 4} (ht : op.extractLsb' 12 4 = t) : formatA t (fieldNnn op) = op := by
  rw [← ht, formatA_fields]

theorem formatXK_of_top {op : Word} {t : BitVec 4} (ht : op.extractLsb' 12 4 = t) :
    formatXK t (fieldX op) (fieldKk op) = op := by
  rw [← ht, formatXK_fields]

theorem formatXK_of_top_of_kk {op : Word} {t : BitVec 4} {f : Byte} (ht : op.extractLsb' 12 4 = t)
    (hf : fieldKk op = f) : formatXK t (fieldX op) f = op := by
  rw [← ht, ← hf, formatXK_fields]

theorem formatXY_of_top {op : Word} {t : BitVec 4} (ht : op.extractLsb' 12 4 = t) :
    formatXY t (fieldX op) (fieldY op) (fieldN op) = op := by
  rw [← ht, formatXY_fields]

theorem formatXY_of_top_of_n {op : Word} {t f : BitVec 4} (ht : op.extractLsb' 12 4 = t) (hf : fieldN op = f) :
    formatXY t (fieldX op) (fieldY op) f = op := by
  rw [← ht, ← hf, formatXY_fields]

/-! ## The words that a row accepts -/

theorem encode_of_decodeZero {e : Bool} {op : Word} {i : Instr} (h : decodeZero op = .ok i) :
    encode i = op ∧ WellFormed e i = true := by
  unfold decodeZero at h
  split_ifs at h with h1 h2
  · cases h
    exact ⟨h1.symm, rfl⟩
  · cases h
    exact ⟨h2.symm, rfl⟩

theorem encode_of_decodeEight {e : Bool} {op : Word} {i : Instr} (ht : op.extractLsb' 12 4 = 0x8#4)
    (h : decodeEight op = .ok i) : encode i = op ∧ WellFormed e i = true := by
  unfold decodeEight at h
  split at h <;> cases h <;> exact ⟨formatXY_of_top_of_n ht (BitVec.eq_of_toNat_eq ‹_›), rfl⟩

theorem encode_of_decodeNine {e : Bool} {op : Word} {i : Instr} (ht : op.extractLsb' 12 4 = 0x9#4)
    (h : decodeNine op = .ok i) : encode i = op ∧ WellFormed e i = true := by
  unfold decodeNine at h
  split_ifs at h with hn
  cases h
  exact ⟨formatXY_of_top_of_n ht hn, rfl⟩

theorem encode_of_decodeE {e : Bool} {op : Word} {i : Instr} (ht : op.extractLsb' 12 4 = 0xE#4)
    (h : decodeE e op = .ok i) : encode i = op ∧ WellFormed e i = true := by
  unfold decodeE at h
  split_ifs at h with h1 h2
  · cases h
    exact ⟨formatXK_of_top_of_kk ht h1, rfl⟩
  · cases h
    exact ⟨formatXK_of_top_of_kk ht h2.1, h2.2⟩

theorem encode_of_decodeF {e : Bool} {op : Word} {i : Instr} (ht : op.extractLsb' 12 4 = 0xF#4)
    (h : decodeF op = .ok i) : encode i = op ∧ WellFormed e i = true := by
  unfold decodeF at h
  split_ifs at h <;> cases h <;> exact ⟨formatXK_of_top_of_kk ht ‹_›, rfl⟩

/-- Encoding a decoded word gives it back, row by row of the decoder (30_encoding.md R75, R77). -/
theorem encode_of_decode {e : Bool} {op : Word} {i : Instr} (h : decode e op = .ok i) :
    encode i = op ∧ WellFormed e i = true := by
  have htop {t : BitVec 4} (ht : (op.extractLsb' 12 4).toNat = t.toNat) : op.extractLsb' 12 4 = t :=
    BitVec.eq_of_toNat_eq ht
  unfold decode at h
  split at h
  case h_1 => exact encode_of_decodeZero h
  case h_8 ht => exact encode_of_decodeEight (htop ht) h
  case h_9 ht => exact encode_of_decodeNine (htop ht) h
  case h_13 ht => exact encode_of_decodeE (htop ht) h
  case h_14 ht => exact encode_of_decodeF (htop ht) h
  case h_15 => cases h
  case h_2 ht | h_3 ht | h_10 ht => cases h; exact ⟨formatA_of_top (htop ht), rfl⟩
  case h_4 ht | h_5 ht | h_6 ht | h_7 ht | h_11 ht => cases h; exact ⟨formatXK_of_top (htop ht), rfl⟩
  case h_12 ht => cases h; exact ⟨formatXY_of_top (htop ht), rfl⟩

/-! ## The words that a row rejects -/

theorem decodeZero_unknown_iff (op : Word) :
    decodeZero op = .error (.unknownOpcode op) ↔ op.toNat ≠ 0x00E0 ∧ op.toNat ≠ 0x00EE := by
  have h1 : op = 0x00E0#16 ↔ op.toNat = 0x00E0 := BitVec.toNat_inj.symm
  have h2 : op = 0x00EE#16 ↔ op.toNat = 0x00EE := BitVec.toNat_inj.symm
  unfold decodeZero
  split_ifs <;> simp_all

theorem decodeEight_unknown_iff (op : Word) :
    decodeEight op = .error (.unknownOpcode op) ↔ op.toNat % 16 ∈ [0x8, 0x9, 0xA, 0xB, 0xC, 0xD, 0xF] := by
  unfold decodeEight
  rw [toNat_fieldN]
  split
  case h_10 =>
    simp only [imp_false] at *
    simp
    omega
  all_goals next hn => simp [hn]

theorem decodeNine_unknown_iff (op : Word) :
    decodeNine op = .error (.unknownOpcode op) ↔ op.toNat % 16 ≠ 0 := by
  have hn : fieldN op = 0#4 ↔ op.toNat % 16 = 0 := by rw [← BitVec.toNat_inj, toNat_fieldN]; rfl
  unfold decodeNine
  split_ifs <;> simp_all

theorem fieldKk_eq_iff (op : Word) (f : Byte) : fieldKk op = f ↔ op.toNat % 256 = f.toNat := by
  rw [← BitVec.toNat_inj, toNat_fieldKk]

theorem decodeE_unknown_iff (e : Bool) (op : Word) :
    decodeE e op = .error (.unknownOpcode op) ↔
      op.toNat % 256 ≠ 0x9E ∧ (op.toNat % 256 = 0xA1 → e = false) := by
  simp only [decodeE, fieldKk_eq_iff]
  split_ifs <;> simp_all

theorem decodeF_unknown_iff (op : Word) :
    decodeF op = .error (.unknownOpcode op) ↔
      op.toNat % 256 ∉ [0x07, 0x0A, 0x15, 0x18, 0x1E, 0x29, 0x33, 0x55, 0x65] := by
  simp only [decodeF, fieldKk_eq_iff]
  split_ifs <;> simp_all

end Sys2Proof

namespace Sys2Proof.Claims

/-- Settles O1: the decoder on the encoder's formats, row by row. -/
theorem decodeOfEncodeIsTheInstruction : Obligations.DecodeOfEncodeIsTheInstruction :=
  fun _ _ h => decode_encode h

/-- Settles O2: the fields of the row that accepted the word assemble the word again. -/
theorem encodeOfDecodeIsTheWord : Obligations.EncodeOfDecodeIsTheWord :=
  fun _ _ _ h => encode_of_decode h

/-- Settles O3: each word by the decoder's own computation. -/
theorem sampleWordsDecode : Obligations.SampleWordsDecode :=
  ⟨rfl, rfl, rfl, rfl, rfl, rfl, rfl, rfl, rfl, rfl, rfl⟩

/-- Settles O4: by the top nibble, each of the decoder's rows by the words that it rejects; no row has 5 or B. -/
theorem unknownWordsAreThoseListed : Obligations.UnknownWordsAreThoseListed := by
  intro e op
  have hlt : op.toNat / 4096 < 16 := by have := op.isLt; omega
  unfold decode
  rw [toNat_topNibble]
  split
  case h_1 ht => simp [ht, decodeZero_unknown_iff]
  case h_8 ht => simp [ht, decodeEight_unknown_iff]
  case h_9 ht => simp [ht, decodeNine_unknown_iff]
  case h_13 ht => simp [ht, decodeE_unknown_iff]
  case h_14 ht => simp [ht, decodeF_unknown_iff]
  case h_15 =>
    simp only [imp_false] at *
    have ht : op.toNat / 4096 = 0x5 ∨ op.toNat / 4096 = 0xB := by omega
    rcases ht with ht | ht <;> simp [ht]
  all_goals next ht => simp [ht]

end Sys2Proof.Claims
end

section
/-! PROOFS. Instructions (41_flow.md to 45_timers_keys.md): what the draw, the store of registers, the key wait, the
negated key test and the random byte answer. -/

namespace Sys2Proof.Machine

/-! ## What the instructions answer -/

theorem exec_rnd (x : Reg) (kk : Byte) (s : State) :
    exec (.rnd x kk) s = .next { s.setReg x (Config.randomByte s.free &&& kk) with free := s.free + 1 } := rfl

theorem exec_sknp_of_key {x : Reg} {s : State} {k : Fin 16} (h : (s.reg x).toNat = k.val) :
    exec (.sknp x) s = .next (s.skipIf (!s.isPressed k)) := by
  simp only [exec, execSknp, keyIndex_of_toNat_eq h]

theorem exec_sknp_of_gt {x : Reg} {s : State} (h : (s.reg x).toNat > 0xF) :
    exec (.sknp x) s = .refused (.keyIndexOutOfRange (s.reg x)) := by
  simp only [exec, execSknp, keyIndex_of_gt h]

theorem exec_ldVxK_of_pressed {s : State} {k : Nat} (x : Reg) (h : s.leastPressed = some k) :
    exec (.ldVxK x) s = .next (s.setReg x (BitVec.ofNat 8 k)) := by
  simp only [exec, execLdVxK, h]

theorem exec_ldVxK_of_none {s : State} (x : Reg) (h : s.leastPressed = none) :
    exec (.ldVxK x) s = .next (s.setPc (s.pc - 2#16)) := by
  simp only [exec, execLdVxK, h]

theorem exec_ldMemVx_of_inside {x : Reg} {s : State} (h : s.i.toNat + (x.toNat + 1) ≤ memSize) :
    exec (.ldMemVx x) s = .next ((placeBytes s s.i.toNat (s.regsUpTo x)).setI (s.pastRange x)) := by
  have hstore : storeBytes s (s.indirect 0) (s.regsUpTo x) = .ok _ :=
    storeBytes_ok (.inr ((State.length_regsUpTo s x).symm ▸ h))
  simp only [exec, execLdMemVx, hstore]
  rfl

theorem exec_ldMemVx_of_outside {x : Reg} {s : State} (h : memSize < s.i.toNat + (x.toNat + 1)) :
    exec (.ldMemVx x) s = .fault (.outOfBoundsMemory (max s.i.toNat memSize)) := by
  have hne : s.regsUpTo x ≠ [] := List.ne_nil_of_length_pos (by simp)
  have hstore : storeBytes s (s.indirect 0) (s.regsUpTo x) = .error _ :=
    storeBytes_error hne ((State.length_regsUpTo s x).symm ▸ h)
  simp only [exec, execLdMemVx, hstore]
  rfl

/-- The bytes of a sprite of `n` rows (44_display.md R191). -/
def State.spriteRows (s : State) (n : Nat) : List Byte := (List.range n).map fun r => s.peek (s.i.toNat + r)

/-- What drawing that sprite at (V[x], V[y]) makes of the frame buffer, and whether it collides. -/
def State.drawn (s : State) (x y : Reg) (n : Nat) : Frame × Bool :=
  drawRows (s.reg x).toNat (s.reg y).toNat (s.spriteRows n) (s.fb, false)

theorem exec_drw_of_inside (x y : Reg) {n : BitVec 4} {s : State}
    (h : n.toNat = 0 ∨ s.i.toNat + n.toNat ≤ memSize) :
    exec (.drw x y n) s =
      .next (State.setReg { s with fb := (s.drawn x y n.toNat).1 } VF (flagByte (s.drawn x y n.toNat).2)) := by
  have hload : loadBytes s (s.indirect 0) n.toNat = .ok (s.spriteRows n.toNat) := loadBytes_ok h
  simp only [exec, execDrw, hload]
  rfl

theorem exec_drw_of_outside (x y : Reg) {n : BitVec 4} {s : State} (hne : n.toNat ≠ 0)
    (h : memSize < s.i.toNat + n.toNat) :
    exec (.drw x y n) s = .fault (.outOfBoundsMemory (max s.i.toNat memSize)) := by
  have hload : loadBytes s (s.indirect 0) n.toNat = .error _ := loadBytes_error hne h
  simp only [exec, execDrw, hload]
  rfl

theorem exec_drw_next {x y : Reg} {n : BitVec 4} {s t : State} (h : exec (.drw x y n) s = .next t) :
    t = State.setReg { s with fb := (s.drawn x y n.toNat).1 } VF (flagByte (s.drawn x y n.toNat).2) := by
  by_cases hin : n.toNat = 0 ∨ s.i.toNat + n.toNat ≤ memSize
  · rw [exec_drw_of_inside x y hin] at h
    cases h
    rfl
  · rw [exec_drw_of_outside x y (by omega) (by omega)] at h
    cases h

/-! ## Flags and bits -/

theorem flagByte_eq_one_iff (c : Bool) : flagByte c = 1#8 ↔ c = true := by
  cases c <;> decide

theorem flagByte_eq_zero_iff (c : Bool) : flagByte c = 0#8 ↔ c = false := by
  cases c <;> decide

/-- A sprite byte has a set bit, counted from the most significant, exactly when it is not 0. -/
theorem exists_getLsbD_iff_ne_zero (b : Byte) : (∃ c < 8, b.getLsbD (7 - c) = true) ↔ b ≠ 0#8 := by
  constructor
  · rintro ⟨c, -, hbit⟩ rfl
    simp at hbit
  · intro hne
    by_contra hno
    refine hne (BitVec.eq_of_getLsbD_eq fun k hk => ?_)
    have hclear : ¬b.getLsbD (7 - (7 - k)) = true := fun h => hno ⟨7 - k, by omega, h⟩
    rw [show 7 - (7 - k) = k by omega] at hclear
    simpa using hclear

end Sys2Proof.Machine

namespace Sys2Proof.Claims

open Sys2Proof.Machine

/-! ## The sprite -/

/-- The pixels that a statement calls covered are those on which the raster's rows land. -/
theorem spriteLands_spriteRows_iff (s : State) (cx cy n px py : Nat) :
    spriteLands cx cy (s.spriteRows n) px py ↔ SpriteCovers s cx cy n px py := by
  refine exists_congr fun r => exists_congr fun c => ?_
  rw [State.spriteRows, List.length_map, List.length_range]
  refine and_congr_right fun hr => ?_
  rw [List.getD_eq_getElem _ _ (by simpa using hr)]
  simp [bitLands]

/-- Covering reads only I and the sprite's bytes. -/
theorem spriteCovers_congr {s u : State} {n : Nat} (hi : u.i = s.i)
    (hbytes : ∀ r, r < n → u.peek (s.i.toNat + r) = s.peek (s.i.toNat + r)) (cx cy px py : Nat) :
    SpriteCovers u cx cy n px py ↔ SpriteCovers s cx cy n px py := by
  refine exists_congr fun r => exists_congr fun c => and_congr_right fun hr => ?_
  rw [hi, hbytes r hr]

/-- Some pixel is covered exactly when the sprite has a set bit. -/
theorem exists_spriteCovers_iff (s : State) (cx cy n : Nat) :
    (∃ px py, px < 64 ∧ py < 32 ∧ SpriteCovers s cx cy n px py) ↔ ∃ r < n, s.peek (s.i.toNat + r) ≠ 0#8 := by
  simp only [← exists_getLsbD_iff_ne_zero]
  constructor
  · rintro ⟨_, _, -, -, r, c, hr, hc, hbit, -, -⟩
    exact ⟨r, hr, c, hc, hbit⟩
  · rintro ⟨r, hr, c, hc, hbit⟩
    exact ⟨_, _, Nat.mod_lt _ (by decide), Nat.mod_lt _ (by decide), r, c, hr, hc, hbit, rfl, rfl⟩

/-- A draw inverts the covered pixels (44_display.md R191). -/
theorem pixelAt_drawn (s : State) (x y : Reg) {n px py : Nat} (hn : n ≤ 32) (hx : px < 64) (hy : py < 32) :
    pixelAt (s.drawn x y n).1 px py = true ↔
      (s.frame px py = true ↔ ¬SpriteCovers s (s.reg x).toNat (s.reg y).toNat n px py) := by
  have hlen : (s.spriteRows n).length ≤ 32 := by simpa [State.spriteRows] using hn
  rw [← spriteLands_spriteRows_iff]
  exact (drawRows_spec _ _ _ (s.fb, false) hlen).1 px py hx hy

/-- A draw collides when a covered pixel was set (44_display.md R191). -/
theorem drawn_collides_iff (s : State) (x y : Reg) {n : Nat} (hn : n ≤ 32) :
    (s.drawn x y n).2 = true ↔
      ∃ px py, px < 64 ∧ py < 32 ∧ s.frame px py = true ∧
        SpriteCovers s (s.reg x).toNat (s.reg y).toNat n px py := by
  have hlen : (s.spriteRows n).length ≤ 32 := by simpa [State.spriteRows] using hn
  refine (drawRows_spec _ _ _ (s.fb, false) hlen).2.trans ?_
  simp only [spriteLands_spriteRows_iff, Bool.false_eq_true, false_or]
  exact exists_congr fun _ => exists_congr fun _ => and_congr_right fun _ => and_congr_right fun _ => and_comm

/-- A second draw of the same sprite at the same place inverts the same pixels again. -/
theorem pixelAt_drawn_again {s u : State} {x y : Reg} {n px py : Nat} (hn : n ≤ 32) (hfb : u.fb = (s.drawn x y n).1)
    (hcovers : ∀ px py, SpriteCovers u (u.reg x).toNat (u.reg y).toNat n px py ↔
      SpriteCovers s (s.reg x).toNat (s.reg y).toNat n px py)
    (hx : px < 64) (hy : py < 32) : pixelAt (u.drawn x y n).1 px py = s.frame px py := by
  have hfirst := pixelAt_drawn s x y hn hx hy
  have hsecond := pixelAt_drawn u x y hn hx hy
  rw [hcovers, State.frame, hfb, hfirst] at hsecond
  exact Bool.eq_iff_iff.mpr (hsecond.trans (by tauto))

/-- The second draw collides where the first found a covered pixel clear (90_conflicts.md C4). -/
theorem drawn_again_collides_iff {s u : State} {x y : Reg} {n : Nat} (hn : n ≤ 32) (hfb : u.fb = (s.drawn x y n).1)
    (hcovers : ∀ px py, SpriteCovers u (u.reg x).toNat (u.reg y).toNat n px py ↔
      SpriteCovers s (s.reg x).toNat (s.reg y).toNat n px py) :
    (u.drawn x y n).2 = true ↔ ∃ px py, px < 64 ∧ py < 32 ∧ s.frame px py = false ∧
      SpriteCovers s (s.reg x).toNat (s.reg y).toNat n px py := by
  rw [drawn_collides_iff u x y hn]
  refine exists_congr fun px => exists_congr fun py => and_congr_right fun hx => and_congr_right fun hy => ?_
  rw [hcovers, State.frame, hfb, pixelAt_drawn s x y hn hx hy, ← Bool.not_eq_true]
  tauto

/-! ## The obligations -/

/-- Settles O29: the instruction is one register write, of the draw that the counter numbers, and one count. -/
theorem randomByteIsDrawnAndMasked : Obligations.RandomByteIsDrawnAndMasked := by
  intro e x kk s
  have hreg := State.reg_setReg_same s x (Config.randomByte s.free &&& kk)
  refine ⟨decode_of_eq_encode (wordXK_eq 0xC x kk) rfl, _, exec_rnd x kk s, hreg, fun hkk => ?_,
    (writesOnlyRegs_setReg ..).1, rfl, fun _ => rfl⟩
  exact hreg.trans (by rw [hkk, BitVec.and_zero])

/-- Settles O33: the call leaves pc on top of the stack that it found, and the return takes the top off again. -/
theorem returnUndoesCall : Obligations.ReturnUndoesCall := by
  intro nnn s t u w hcall hstack hret
  rcases Nat.lt_or_ge s.stack.length s.params.stackCapacity with hlt | hge
  · rw [exec_call_of_lt hlt] at hcall
    cases hcall
    rw [exec_ret_of_cons hstack] at hret
    cases hret
    exact ⟨rfl, rfl⟩
  · rw [exec_call_of_full hge] at hcall
    cases hcall

/-- Settles O40: the store of the row of x + 1 registers, on the two sides of the end of memory. -/
theorem storeRegistersToMemory : Obligations.StoreRegistersToMemory := by
  intro e x s
  refine ⟨decode_of_eq_encode (wordXK_eq 0xF x 0x55) rfl, fun hin => ?_, fun hout => ?_⟩
  · have hlen := State.length_regsUpTo s x
    refine ⟨_, exec_ldMemVx_of_inside hin, fun r hr => ?_, State.toNat_pastRange s x, ?_, ?_⟩
    · rw [State.peek_setI, State.peek_placeBytes_add s _ _ (by omega), State.getD_regsUpTo s x r hr]
    · rw [← hlen]
      exact sameBytesOutside_placeBytes s _ (s.regsUpTo x)
    · rw [State.placeBytes_eq]
      rfl
  · exact exec_ldMemVx_of_outside (Nat.lt_succ_of_le hout)

/-- Settles O43: the pixels and the collision of the raster, which reads its coordinates before VF is written. -/
theorem drawXorsTheSprite : Obligations.DrawXorsTheSprite := by
  intro e x y n s
  have hn : n.toNat ≤ 32 := by have := n.isLt; omega
  refine ⟨decode_of_eq_encode (wordXY_eq 0xD x y n) rfl, fun hin => ?_, fun ⟨hne, hout⟩ =>
    exec_drw_of_outside x y hne hout⟩
  have hcollides := drawn_collides_iff s x y hn
  refine ⟨_, exec_drw_of_inside x y hin, fun px py hx hy => pixelAt_drawn s x y hn hx hy, fun hset => ?_,
    fun hclear => ?_, (writesOnlyRegs_setReg _ VF _).1, rfl, fun _ => rfl⟩
  · rw [State.reg_setReg_same, flagByte_eq_one_iff, hcollides]
    exact hset
  · rw [State.reg_setReg_same, flagByte_eq_zero_iff, ← Bool.not_eq_true, hcollides]
    rintro ⟨px, py, hx, hy, hset, hcovers⟩
    exact hclear px py hx hy hset hcovers

/-- Settles O44: both draws cover the same pixels, so each is inverted twice, and the second draw finds a covered pixel
set exactly where the first found it clear. -/
theorem drawingTwiceRestoresThePixels : Obligations.DrawingTwiceRestoresThePixels := by
  intro x y n s t u w hfirst hfb hi hbytes hx hy hsecond
  have hn : n.toNat ≤ 32 := by have := n.isLt; omega
  have hfb : u.fb = (s.drawn x y n.toNat).1 := by rw [hfb, exec_drw_next hfirst]; rfl
  have hcovers (px py : Nat) : SpriteCovers u (u.reg x).toNat (u.reg y).toNat n.toNat px py ↔
      SpriteCovers s (s.reg x).toNat (s.reg y).toNat n.toNat px py := by
    rw [hx, hy]
    exact spriteCovers_congr hi hbytes ..
  have hVF : w.reg VF = flagByte (u.drawn x y n.toNat).2 := by
    rw [exec_drw_next hsecond, State.reg_setReg_same]
  have hflag : w.reg VF = 1#8 ↔ ∃ px py, px < 64 ∧ py < 32 ∧ s.frame px py = false ∧
      SpriteCovers s (s.reg x).toNat (s.reg y).toNat n.toNat px py := by
    rw [hVF, flagByte_eq_one_iff, drawn_again_collides_iff hn hfb hcovers]
  have hflag01 : w.reg VF = 0#8 ∨ w.reg VF = 1#8 := hVF ▸ flagByte_cases _
  refine ⟨fun px py h1 h2 => ?_, hflag, hflag01, fun hclear => ?_⟩
  · rw [← pixelAt_drawn_again hn hfb hcovers h1 h2, exec_drw_next hsecond]
    rfl
  · have hbits := exists_spriteCovers_iff s (s.reg x).toNat (s.reg y).toNat n.toNat
    by_cases hset : ∃ r < n.toNat, s.peek (s.i.toNat + r) ≠ 0#8
    · obtain ⟨px, py, h1, h2, hc⟩ := hbits.mpr hset
      rw [if_pos hset]
      exact hflag.mpr ⟨px, py, h1, h2, hclear px py h1 h2 hc, hc⟩
    · rw [if_neg hset]
      refine hflag01.resolve_right fun hone => hset (hbits.mp ?_)
      obtain ⟨px, py, h1, h2, -, hc⟩ := hflag.mp hone
      exact ⟨px, py, h1, h2, hc⟩

/-- Settles O46: as O45 with the level negated; the decoder's row E has A1 only where the option is on. -/
theorem skipsOnReleasedKey : Obligations.SkipsOnReleasedKey := by
  intro x s
  have hword := wordXK_eq 0xE x 0xA1
  refine ⟨decode_of_eq_encode hword rfl, ?_, fun k hk => ?_, exec_sknp_of_gt⟩
  · rw [show wordXK 0xE x 0xA1 = _ from hword]
    simp only [decode, decodeE, fields_formatXK]
    rfl
  · refine ⟨_, exec_sknp_of_key hk, ?_, writesOnlyPc_skipIf ..⟩
    rw [State.skipIf_eq]
    cases s.isPressed k <;> rfl

/-- Settles O48: the search of the latch finds the least pressed key, or none. -/
theorem waitForKeyLoadsTheLeastOrRewinds : Obligations.WaitForKeyLoadsTheLeastOrRewinds := by
  intro e x s
  refine ⟨decode_of_eq_encode (wordXK_eq 0xF x 0x0A) rfl, fun k hpressed hleast => ?_, fun hnone => ?_⟩
  · have hk : s.leastPressed = some k.val := (s.leastPressed_some _).mpr ⟨k.isLt, hpressed, hleast⟩
    refine ⟨_, exec_ldVxK_of_pressed x hk, ?_, writesOnlyRegs_setReg ..⟩
    rw [State.reg_setReg_same, BitVec.toNat_ofNat, Nat.mod_eq_of_lt (by omega)]
  · exact ⟨_, exec_ldVxK_of_none x (s.leastPressed_none.mpr hnone), rfl, writesOnlyPc_setPc ..⟩

end Sys2Proof.Claims
end

section
/-! PROOFS. Rules about every instruction (10_state.md, 20_memory.md): the writes by which an instruction answers its
next state, as a relation that has one constructor per shape of write. -/

namespace Sys2Proof.Claims

open Sys2Proof.Machine

/-- `Writes s i t`: from `s` the instruction `i` may answer `t`. The values written are left free where no rule about
every instruction speaks of them; which registers stay, the guards of the stack and the canonical form of memory are
not. -/
inductive Writes (s : State) : Instr → State → Prop
  | regs {i : Instr} {v : Vector Byte 16} (hkeep : SameRegsBut (destinations i) s { s with v := v }) :
      Writes s i { s with v := v }
  | random {x : Reg} {kk : Byte} {v : Vector Byte 16}
      (hkeep : SameRegsBut (destinations (.rnd x kk)) s { s with v := v }) :
      Writes s (.rnd x kk) { s with v := v, free := s.free + 1 }
  | clear : Writes s .cls { s with fb := blankFrame }
  | draw {x y : Reg} {n : BitVec 4} {v : Vector Byte 16} (f : Frame)
      (hkeep : SameRegsBut (destinations (.drw x y n)) s { s with v := v }) :
      Writes s (.drw x y n) { s with v := v, fb := f }
  | skip (i : Instr) (c : Bool) : Writes s i { s with pc := if c then s.pc + 2#16 else s.pc }
  | jump (nnn : Addr12) : Writes s (.jp nnn) { s with pc := absolute nnn }
  | call (nnn : Addr12) (hroom : s.stack.length < s.params.stackCapacity) :
      Writes s (.call nnn) { s with stack := s.pc :: s.stack, pc := absolute nnn }
  | ret {a : Word} {rest : List Word} (hstack : s.stack = a :: rest) : Writes s .ret { s with stack := rest, pc := a }
  | rewind (x : Reg) : Writes s (.ldVxK x) { s with pc := s.pc - 2#16 }
  | loadIndex (nnn : Addr12) : Writes s (.ldI nnn) { s with i := absolute nnn }
  | addIndex (x : Reg) (w : Word) : Writes s (.addIVx x) { s with i := w }
  | glyph (x : Reg) (w : Word) : Writes s (.ldFVx x) { s with i := w }
  | delay (x : Reg) : Writes s (.ldDtVx x) { s with dt := s.reg x }
  | sound (x : Reg) : Writes s (.ldStVx x) { s with st := s.reg x }
  | digits {x : Reg} {m : Memory} (hwf : Memory.wf s.params s.mem = true → Memory.wf s.params m = true) :
      Writes s (.ldBVx x) { s with mem := m }
  | storeRegs {x : Reg} {m : Memory} (w : Word)
      (hwf : Memory.wf s.params s.mem = true → Memory.wf s.params m = true) :
      Writes s (.ldMemVx x) { s with mem := m, i := w }
  | loadRegs {x : Reg} {v : Vector Byte 16} (w : Word)
      (hkeep : SameRegsBut (destinations (.ldVxMem x)) s { s with v := v }) :
      Writes s (.ldVxMem x) { s with v := v, i := w }

/-! ## Every next state that an instruction answers is one of these writes -/

theorem Writes.of_writesOnlyRegs {i : Instr} {s t : State} (h : WritesOnlyRegs (destinations i) s t) :
    Writes s i t := by
  obtain ⟨hkeep, ht, -⟩ := h
  rw [ht] at hkeep ⊢
  exact .regs hkeep

theorem Writes.skipIf (i : Instr) (s : State) (c : Bool) : Writes s i (s.skipIf c) := by
  rw [State.skipIf_eq]
  exact .skip i c

/-- The destinations of the block load are V[0] to V[x]. -/
theorem lt_of_not_mem_destinations_ldVxMem {x r : Reg} (h : r ∉ destinations (.ldVxMem x)) : x.toNat < r.toNat := by
  by_contra hle
  refine h (List.mem_map.mpr ⟨r.toNat, List.mem_range.mpr (by omega), ?_⟩)
  rw [BitVec.ofNat_toNat, BitVec.setWidth_eq]

theorem sameRegsBut_fillRegs (s : State) {x : Reg} {bs : List Byte} (hlen : bs.length = x.toNat + 1) :
    SameRegsBut (destinations (.ldVxMem x)) s { s with v := fillRegs s.v 0 bs } := by
  intro r hr
  have hlt := lt_of_not_mem_destinations_ldVxMem hr
  rw [State.reg_fillRegs_zero, if_neg (by omega)]

theorem exec_writes {i : Instr} {s t : State} (h : exec i s = .next t) : Writes s i t := by
  cases i with
  | cls => cases h; exact .clear
  | jp nnn => cases h; exact .jump nnn
  | seImm | sneImm | sneReg => cases h; exact .skipIf _ s _
  | ldImm | addImm | ldReg | orReg | andReg | xorReg | ldVxDt =>
    cases h
    exact .of_writesOnlyRegs (writesOnlyRegs_setReg ..)
  | addReg => cases h; exact .of_writesOnlyRegs (writesOnlyRegs_writeBoth ..)
  | sub | shr | subn | shl => cases h; exact .of_writesOnlyRegs (writesOnlyRegs_flagThenResult ..)
  | rnd x kk => cases h; exact .random (writesOnlyRegs_setReg ..).1
  | ldI nnn => cases h; exact .loadIndex nnn
  | addIVx x => cases h; exact .addIndex x _
  | ldDtVx x => cases h; exact .delay x
  | ldStVx x => cases h; exact .sound x
  | drw x y n => rw [exec_drw_next h]; exact .draw _ (writesOnlyRegs_setReg s VF _).1
  | ret =>
    cases hstack : s.stack with
    | nil => rw [exec_ret_of_nil hstack] at h; cases h
    | cons a rest => rw [exec_ret_of_cons hstack] at h; cases h; exact .ret hstack
  | call nnn =>
    rcases Nat.lt_or_ge s.stack.length s.params.stackCapacity with hlt | hge
    · rw [exec_call_of_lt hlt] at h; cases h; exact .call nnn hlt
    · rw [exec_call_of_full hge] at h; cases h
  | skp x =>
    rcases Nat.lt_or_ge (s.reg x).toNat 16 with hlt | hge
    · rw [exec_skp_of_key (k := ⟨_, hlt⟩) rfl] at h; cases h; exact .skipIf _ s _
    · rw [exec_skp_of_gt hge] at h; cases h
  | sknp x =>
    rcases Nat.lt_or_ge (s.reg x).toNat 16 with hlt | hge
    · rw [exec_sknp_of_key (k := ⟨_, hlt⟩) rfl] at h; cases h; exact .skipIf _ s _
    · rw [exec_sknp_of_gt hge] at h; cases h
  | ldVxK x =>
    cases hk : s.leastPressed with
    | some k => rw [exec_ldVxK_of_pressed x hk] at h; cases h; exact .of_writesOnlyRegs (writesOnlyRegs_setReg ..)
    | none => rw [exec_ldVxK_of_none x hk] at h; cases h; exact .rewind x
  | ldFVx x =>
    by_cases hd : (s.reg x).toNat < 16
    · rw [exec_ldFVx_of_digit hd] at h; cases h; exact .glyph x _
    · rw [exec_ldFVx_of_not_digit hd] at h; cases h
  | ldBVx x =>
    rcases Nat.lt_or_ge memSize (s.i.toNat + 3) with hout | hin
    · rw [exec_ldBVx_of_outside hout] at h; cases h
    · rw [exec_ldBVx_of_inside hin, State.placeBytes_eq] at h
      cases h
      exact .digits (State.wf_placeBytes hin)
  | ldMemVx x =>
    rcases Nat.lt_or_ge memSize (s.i.toNat + (x.toNat + 1)) with hout | hin
    · rw [exec_ldMemVx_of_outside hout] at h; cases h
    · rw [exec_ldMemVx_of_inside hin, State.placeBytes_eq] at h
      cases h
      exact .storeRegs _ (State.wf_placeBytes (by rwa [State.length_regsUpTo]))
  | ldVxMem x =>
    rcases Nat.lt_or_ge memSize (s.i.toNat + (x.toNat + 1)) with hout | hin
    · rw [exec_ldVxMem_of_outside hout] at h; cases h
    · rw [exec_ldVxMem_of_inside hin] at h
      cases h
      exact .loadRegs _ (sameRegsBut_fillRegs s (by rw [List.length_map, List.length_range]))

/-! ## What the writes leave unchanged -/

theorem Writes.frame {i : Instr} {s t : State} (h : Writes s i t) :
    t = { s with v := t.v, i := t.i, pc := t.pc, stack := t.stack, dt := t.dt, st := t.st, fb := t.fb, mem := t.mem,
                 free := t.free } := by
  cases h <;> rfl

theorem Writes.params {i : Instr} {s t : State} (h : Writes s i t) : t.params = s.params := by
  rw [h.frame]

theorem Writes.mem_of_not_stores {i : Instr} {s t : State} (h : Writes s i t) (hi : stores i = false) :
    t.mem = s.mem := by
  cases h with
  | digits | storeRegs => cases hi
  | _ => rfl

/-- The stores keep memory in canonical form. -/
theorem Writes.wf {i : Instr} {s t : State} (h : Writes s i t) (hm : Memory.wf s.params s.mem = true) :
    Memory.wf t.params t.mem = true := by
  cases h with
  | digits hwf | storeRegs w hwf => exact hwf hm
  | _ => exact hm

/-! ## The obligations -/

/-- Settles O49: a write of registers is one of destinations. -/
theorem onlyDestinationsAreWritten : Obligations.OnlyDestinationsAreWritten := by
  intro i s t r h hr
  cases exec_writes h with
  | regs hkeep | random hkeep | draw f hkeep | loadRegs w hkeep => exact hkeep r hr
  | _ => rfl

/-- Settles O50: the two stores apart, no write touches memory or the parameters, so every byte reads as before. -/
theorem onlyStoresChangeMemory : Obligations.OnlyStoresChangeMemory := by
  intro i s t h hi
  have hmem := (exec_writes h).mem_of_not_stores hi
  exact ⟨hmem, State.peek_congr (exec_writes h).params hmem⟩

/-- Settles O51: none of the writes touches the control state. -/
theorem instructionsLeaveTheControlState : Obligations.InstructionsLeaveTheControlState :=
  fun _ _ _ h => (exec_writes h).frame

/-- Settles O52: a write that changes one of the five resources is one of the instruction that the spec names; every
other write leaves all five as they were. -/
theorem eachResourceHasItsWriters : Obligations.EachResourceHasItsWriters := by
  intro i s t h
  cases exec_writes h with
  | loadIndex nnn => exact ⟨fun _ => .inl ⟨nnn, rfl⟩, by simp⟩
  | addIndex x => exact ⟨fun _ => .inr ⟨x, .inl rfl⟩, by simp⟩
  | glyph x => exact ⟨fun _ => .inr ⟨x, .inr (.inl rfl)⟩, by simp⟩
  | storeRegs => exact ⟨fun _ => .inr ⟨_, .inr (.inr (.inl rfl))⟩, by simp⟩
  | loadRegs => exact ⟨fun _ => .inr ⟨_, .inr (.inr (.inr rfl))⟩, by simp⟩
  | _ => simp

end Sys2Proof.Claims
end

section
/-! PROOFS. The CPU tick and the step (40_execute_cycle.md, 60_exceptions.md): how a tick ends, each end once, and which
states a step can answer. -/

namespace Sys2Proof.Claims

open Sys2Proof.Machine

/-! ## How a tick ends -/

theorem cpuTick_of_next {s t : State} {op : Word} {i : Instr} (hf : fetch s = .ok op)
    (hd : decode s.params.enableExA1 op = .ok i) (he : exec i s.advanced = .next t) : cpuTick s = .next t := by
  rw [cpuTick_of_instr hf hd, he, endTick]

theorem cpuTick_of_exec_fault {s : State} {op : Word} {i : Instr} {f : Fault} (hf : fetch s = .ok op)
    (hd : decode s.params.enableExA1 op = .ok i) (he : exec i s.advanced = .fault f) :
    cpuTick s = .next (s.raise f) := by
  rw [cpuTick_of_instr hf hd, he, endTick]

theorem cpuTick_of_key_refused {s : State} {op : Word} {i : Instr} {v : Byte} (hf : fetch s = .ok op)
    (hd : decode s.params.enableExA1 op = .ok i) (he : exec i s.advanced = .refused (.keyIndexOutOfRange v)) :
    cpuTick s = .next (s.refuse (.keyIndexOutOfRange v)) := by
  rw [cpuTick_of_instr hf hd, he, endTick]

theorem cpuTick_of_font_refused {s : State} {op : Word} {i : Instr} {v : Byte} (hf : fetch s = .ok op)
    (hd : decode s.params.enableExA1 op = .ok i) (he : exec i s.advanced = .refused (.fontDigitOutOfRange v)) :
    cpuTick s = .next (s.refuse (.fontDigitOutOfRange v)) := by
  rw [cpuTick_of_instr hf hd, he, endTick]

/-- `TickEnds s t`: a CPU tick of `s` ends in `t`, by the cause that the constructor names (40_execute_cycle.md R109). -/
inductive TickEnds (s : State) : State → Prop
  | fetchFault {f : Fault} (hf : fetch s = .error f) : TickEnds s (s.raise f)
  | unknown {op : Word} {e : DecodeError} (hf : fetch s = .ok op) (hd : decode s.params.enableExA1 op = .error e) :
      TickEnds s (s.advanced.finish op s.pc)
  | executed {op : Word} {i : Instr} {t : State} (hf : fetch s = .ok op) (hd : decode s.params.enableExA1 op = .ok i)
      (he : exec i s.advanced = .next t) : TickEnds s t
  | fault {op : Word} {i : Instr} {f : Fault} (hf : fetch s = .ok op) (hd : decode s.params.enableExA1 op = .ok i)
      (he : exec i s.advanced = .fault f) : TickEnds s (s.raise f)
  | keyRefused {op : Word} {i : Instr} {v : Byte} (hf : fetch s = .ok op) (hd : decode s.params.enableExA1 op = .ok i)
      (he : exec i s.advanced = .refused (.keyIndexOutOfRange v)) : TickEnds s (s.refuse (.keyIndexOutOfRange v))
  | fontRefused {op : Word} {i : Instr} {v : Byte} (hf : fetch s = .ok op) (hd : decode s.params.enableExA1 op = .ok i)
      (he : exec i s.advanced = .refused (.fontDigitOutOfRange v)) : TickEnds s (s.refuse (.fontDigitOutOfRange v))

theorem cpuTick_ends (s : State) : ∃ t, cpuTick s = .next t ∧ TickEnds s t := by
  rcases cpuTick_cases s with ⟨f, hf, h⟩ | ⟨op, e, hf, hd, h⟩ | ⟨op, i, hf, hd, -⟩
  · exact ⟨_, h, .fetchFault hf⟩
  · exact ⟨_, h, .unknown hf hd⟩
  · rcases exec_cases i s.advanced with ⟨t, he⟩ | ⟨f, he⟩ | ⟨v, he⟩ | ⟨v, he⟩
    · exact ⟨_, cpuTick_of_next hf hd he, .executed hf hd he⟩
    · exact ⟨_, cpuTick_of_exec_fault hf hd he, .fault hf hd he⟩
    · exact ⟨_, cpuTick_of_key_refused hf hd he, .keyRefused hf hd he⟩
    · exact ⟨_, cpuTick_of_font_refused hf hd he, .fontRefused hf hd he⟩

/-- A host move ends a run or leaves status alone. -/
theorem applyMove_status (m : HostMove) {s : State} (hr : s.status = .running) :
    (applyMove m s).status = .running ∨ (applyMove m s).status = .quit := by
  cases m with
  | quit => exact .inr (by rw [applyMove, Machine.quit, if_pos hr])
  | pull => exact .inl (by rw [applyMove, Machine.pull, pullWith]; split <;> exact hr)
  | elapsed | setKey | letRun => exact .inl hr

/-! ## What a step can answer -/

/-- Where no host move lands and a timer tick is due, the step is that tick and its drain. -/
theorem step_of_timerDue {s : State} {rest : List HostMove} (hr : s.status = .running)
    (hp : pendingAfterTick s.pending = some rest) (ht : s.params.timerPeriod ≤ s.accTimer) :
    step s = .next { timerTick s with accTimer := s.accTimer - s.params.timerPeriod, pending := rest } := by
  obtain ⟨hturn, hpop⟩ := turn_of_pendingAfterTick hr hp
  rw [step_eq, hturn, coreTurn_timer ht]
  show Host.Outcome.next (timerStep s) = _
  rw [timerStep, hpop]
  rfl

theorem step_of_cpuTick_next {s t : State} {rest : List HostMove} (h : CpuTickRuns s rest)
    (ht : cpuTick { s with pending := rest } = .next t) : step s = .next t.drainCpu := by
  rw [step_of_cpuTickRuns h, ht]

theorem step_of_host {s : State} {m : HostMove} {rest : List HostMove} (h : turn s = .host m rest) :
    step s = .next (applyMove m { s with pending := rest }) := by
  rw [step_eq, h]

theorem step_of_idle {s : State} (h : turn s = .idle) : step s = .next (idleStep s) := by
  rw [step_eq, h]

/-- `StepTo s t`: a step of `s` answers `t`, by whose move it was. -/
inductive StepTo (s : State) : State → Prop
  | halted (h : s.status ≠ .running) : StepTo s s
  | move (hr : s.status = .running) (m : HostMove) (rest : List HostMove) (n : Nat) :
      StepTo s (applyMove m { s with pending := rest, free := n })
  | timer (hr : s.status = .running) (a : Nat) (rest : List HostMove) :
      StepTo s { timerTick s with accTimer := a, pending := rest }
  | cpu {rest : List HostMove} {t : State} (h : CpuTickRuns s rest) (ht : TickEnds { s with pending := rest } t) :
      StepTo s t.drainCpu

theorem idleStep_stepTo {s : State} (hr : s.status = .running) : StepTo s (idleStep s) := by
  unfold idleStep
  split
  · next m rest _ => exact .move hr m rest s.free
  · exact .move hr _ s.pending _

theorem step_stepTo (s : State) : ∃ t, step s = .next t ∧ StepTo s t := by
  rcases turn_cases s with ⟨hr, -⟩ | ⟨hr, m, rest, -, -, hturn⟩ | ⟨hr, rest, hp, hturn⟩
  · exact ⟨s, step_of_halted hr, .halted hr⟩
  · exact ⟨_, step_of_host hturn, .move hr m rest s.free⟩
  · rcases Nat.lt_or_ge s.accTimer s.params.timerPeriod with htimer | htimer
    · rcases Nat.lt_or_ge s.accCpu s.params.cpuPeriod with hcpu | hcpu
      · exact ⟨_, step_of_idle (hturn.trans (coreTurn_idle htimer hcpu)), idleStep_stepTo hr⟩
      · obtain ⟨t, ht, hends⟩ := cpuTick_ends { s with pending := rest }
        have hruns : CpuTickRuns s rest := ⟨hr, hp, htimer, hcpu⟩
        exact ⟨_, step_of_cpuTick_next hruns ht, .cpu hruns hends⟩
    · exact ⟨_, step_of_timerDue hr hp htimer, .timer hr _ rest⟩

theorem stepTo_of_step {s t : State} (h : step s = .next t) : StepTo s t := by
  obtain ⟨u, hu, hto⟩ := step_stepTo s
  rw [hu] at h
  cases h
  exact hto

theorem TickEnds.params {s t : State} (h : TickEnds s t) : t.params = s.params := by
  cases h with
  | executed hf hd he => exact (exec_writes he).params
  | _ => rfl

/-! ## Where a status comes from -/

/-- What a step of `s` that answers the status `st` tells of `s` (60_exceptions.md R228 to R232): it had that status
already, or the CPU tick that ran gives the cause. Only a running machine stays running; a quit may come from the
host. -/
def StatusCause (s : State) (st : Status) : Prop :=
  match st with
  | .running => s.status = .running
  | .fatal f => s.status = .fatal f ∨ ∃ rest, CpuTickRuns s rest ∧
      (fetch s = .error f ∨ ∃ op i, fetch s = .ok op ∧ decode s.params.enableExA1 op = .ok i ∧
        exec i { s with pc := s.pc + 2#16, pending := rest } = .fault f)
  | .finished op a => s.status = .finished op a ∨ ∃ rest, CpuTickRuns s rest ∧
      a = s.pc ∧ fetch s = .ok op ∧ ∃ e, decode s.params.enableExA1 op = .error e
  | .refused (.keyIndexOutOfRange v) => s.status = .refused (.keyIndexOutOfRange v) ∨
      ∃ rest op i, CpuTickRuns s rest ∧ fetch s = .ok op ∧ decode s.params.enableExA1 op = .ok i ∧
        exec i { s with pc := s.pc + 2#16, pending := rest } = .refused (.keyIndexOutOfRange v)
  | .refused (.fontDigitOutOfRange v) => s.status = .refused (.fontDigitOutOfRange v) ∨
      ∃ rest op i, CpuTickRuns s rest ∧ fetch s = .ok op ∧ decode s.params.enableExA1 op = .ok i ∧
        exec i { s with pc := s.pc + 2#16, pending := rest } = .refused (.fontDigitOutOfRange v)
  | .quit => True

theorem statusCause_of_eq {s : State} {st : Status} (h : s.status = st) : StatusCause s st := by
  match st with
  | .running => exact h
  | .fatal _ | .finished _ _ | .refused (.keyIndexOutOfRange _) | .refused (.fontDigitOutOfRange _) => exact .inl h
  | .quit => trivial

/-- A tick that ran names the cause of the status that it ends in. -/
theorem TickEnds.statusCause {s t : State} {rest : List HostMove} (hruns : CpuTickRuns s rest)
    (h : TickEnds { s with pending := rest } t) : StatusCause s t.status := by
  cases h with
  | fetchFault hf => exact .inr ⟨rest, hruns, .inl hf⟩
  | unknown hf hd => exact .inr ⟨rest, hruns, rfl, hf, _, hd⟩
  | fault hf hd he => exact .inr ⟨rest, hruns, .inr ⟨_, _, hf, hd, he⟩⟩
  | keyRefused hf hd he | fontRefused hf hd he => exact .inr ⟨rest, _, _, hruns, hf, hd, he⟩
  | executed hf hd he =>
    refine statusCause_of_eq ?_
    rw [(exec_writes he).frame]
    rfl

theorem StepTo.statusCause {s t : State} (h : StepTo s t) : StatusCause s t.status := by
  cases h with
  | halted | timer => exact statusCause_of_eq rfl
  | cpu hruns hends => exact (hends.statusCause hruns :)
  | move hr m rest n =>
    rcases applyMove_status m (s := { s with pending := rest, free := n }) hr with h | h
    · rw [h]
      exact hr
    · rw [h]
      trivial

/-! ## The obligations -/

/-- Settles O8: the step is the tick with one period taken off, so each clause is the end of the tick that it names. -/
theorem stepRunsTheDecodedInstruction : Obligations.StepRunsTheDecodedInstruction := by
  intro s rest hruns
  refine ⟨fun t ht => step_of_cpuTick_next hruns ht, fun op i t hf hd he => ?_, fun f hf => ?_, fun op e hf hd => ?_,
    fun op i f hf hd he => ?_, fun op i v hf hd => ⟨fun he => ?_, fun he => ?_⟩⟩
  · exact step_of_cpuTick_next hruns (cpuTick_of_next hf hd he)
  · exact ⟨_, step_of_cpuTick_next hruns (cpuTick_of_fault hf), rfl⟩
  · exact step_of_cpuTick_next hruns (cpuTick_of_unknown hf hd)
  · exact ⟨_, step_of_cpuTick_next hruns (cpuTick_of_exec_fault hf hd he), rfl⟩
  · exact step_of_cpuTick_next hruns (cpuTick_of_key_refused hf hd he)
  · exact step_of_cpuTick_next hruns (cpuTick_of_font_refused hf hd he)

/-- Settles O10: the tick raises the fault, and the status that it leaves is not Running. -/
theorem fatalErrorsAreRecordedInStatus : Obligations.FatalErrorsAreRecordedInStatus := by
  intro s op i f hf hd he
  exact ⟨s.raise f, cpuTick_of_exec_fault hf hd he, rfl, step_of_halted (by simp)⟩

/-- Settles O11: a refused tick ends in the state before it, refused. -/
theorem refusedTicksWriteOnlyStatus : Obligations.RefusedTicksWriteOnlyStatus := by
  intro s op i v hf hd
  exact ⟨fun he => cpuTick_of_key_refused hf hd he, fun he => cpuTick_of_font_refused hf hd he⟩

/-- Settles O12: nobody has a turn in a halted machine. -/
theorem haltedMachineKeepsItsState : Obligations.HaltedMachineKeepsItsState :=
  fun _ h => step_of_halted h

/-- Settles O13: the state that the step answers, each status by its cause. -/
theorem everyStepAnswersAState : Obligations.EveryStepAnswersAState := by
  intro s
  obtain ⟨t, hstep, hto⟩ := step_stepTo s
  have hcause (st : Status) (h : t.status = st) : StatusCause s st := h ▸ hto.statusCause
  exact ⟨t, hstep, hcause .running, fun f => hcause (.fatal f), fun op a => hcause (.finished op a),
    fun v => hcause (.refused (.keyIndexOutOfRange v)), fun v => hcause (.refused (.fontDigitOutOfRange v))⟩

/-- Settles O16: by whose move the step was. -/
theorem stepKeepsTheParameters : Obligations.StepKeepsTheParameters := by
  intro s t h
  cases stepTo_of_step h with
  | halted | timer => rfl
  | move hr m rest n => exact (applyMove_fields m _).1
  | cpu hruns hends => exact hends.params

/-- Settles O54: a due timer tick has the turn wherever the core has it. -/
theorem timerTicksRunFirst : Obligations.TimerTicksRunFirst :=
  fun _ _ hr hp ht => step_of_timerDue hr hp ht

end Sys2Proof.Claims
end

section
/-! PROOFS. The host ports (60_exceptions.md): what key events, pulls, quits and elapsed time do, and that the step is
their move where it is theirs. -/

namespace Sys2Proof.Machine

/-! ## The ports -/

theorem isPressed_setKey (s : State) (k j : Fin 16) (p : Bool) :
    (setKey k p s).isPressed j = if j = k then p else s.isPressed j := by
  simp only [State.isPressed, setKey, Vector.getElem_set, Fin.val_inj, eq_comm (a := k)]

theorem quit_of_running {s : State} (h : s.status = .running) : quit s = { s with status := .quit } := if_pos h

theorem pull_of_playing {s : State} (h : readPlaying s = true) :
    pull s = { s with lastSample := s.sampleAt, cursor := (s.cursor + 1) % s.wave.length, free := s.free + 1 } := by
  rw [pull, pullWith, if_pos h]

theorem pull_of_silent {s : State} (h : readPlaying s = false) :
    pull s = { s with lastSample := 0, free := s.free + 1 } := by
  rw [pull, pullWith, if_neg (by rw [h]; decide)]

/-- The cursor wraps at N (60_exceptions.md R255). -/
theorem succ_mod_eq_ite {c n : Nat} (h : c < n) : (c + 1) % n = if c + 1 = n then 0 else c + 1 := by
  split
  · next hn => rw [hn, Nat.mod_self]
  · exact Nat.mod_eq_of_lt (by omega)

/-- A reading is a value held (60_exceptions.md R256). -/
theorem held_of_readPlaying_true {s : State} (h : readPlaying s = true)
    (hnow : if s.playing then s.heldCur.high = true else s.heldCur.low = true) :
    s.heldPrev.high = true ∨ s.heldCur.high = true := by
  unfold readPlaying at h
  split_ifs at h with hlow hhigh
  · simpa using hhigh
  · cases hp : s.playing <;> simp_all

theorem held_of_readPlaying_false {s : State} (h : readPlaying s = false) :
    s.heldPrev.low = true ∨ s.heldCur.low = true := by
  unfold readPlaying at h
  split_ifs at h with hlow hhigh
  · simpa using hlow
  · simpa using hlow

theorem readPlaying_of_only {s : State} (hprev : s.heldPrev = Held.only s.playing)
    (hcur : s.heldCur = Held.only s.playing) : readPlaying s = s.playing := by
  cases hp : s.playing <;> simp [readPlaying, hprev, hcur, hp, Held.only]

end Sys2Proof.Machine

namespace Sys2Proof.Claims

open Sys2Proof.Machine

theorem turn_of_host {s : State} {m : HostMove} {rest : List HostMove} (hr : s.status = .running)
    (hp : s.pending = m :: rest) (hm : pendingAfterTick (m :: rest) = none) : turn s = .host m rest := by
  rcases turn_cases s with ⟨hne, -⟩ | ⟨-, m', rest', hp', -, hturn⟩ | ⟨-, rest', hsome, -⟩
  · exact absurd hr hne
  · rw [hp] at hp'
    cases hp'
    exact hturn
  · rw [hp, hm] at hsome
    cases hsome

/-- Elapsed time is delivered once both accumulators are drained (60_exceptions.md R242). -/
theorem step_of_elapsed {s : State} {delta : Nat} {rest : List HostMove} (hr : s.status = .running)
    (hp : s.pending = .elapsed delta :: rest) (ht : s.accTimer < s.params.timerPeriod)
    (hc : s.accCpu < s.params.cpuPeriod) : step s = .next (deliver delta { s with pending := rest }) := by
  have hturn := (turn_of_pendingAfterTick (rest := s.pending) hr (by rw [hp]; rfl)).1
  rw [step_of_idle (hturn.trans (coreTurn_idle ht hc)), idleStep, hp]
  rfl

/-! ## The obligations -/

/-- Settles O57: a move that no tick waits for has the turn; elapsed time has it once the core idles. -/
theorem hostEventsLandBetweenTicks : Obligations.HostEventsLandBetweenTicks := by
  intro s rest hr
  refine ⟨fun k p hp => ⟨_, step_of_host (turn_of_host hr hp rfl), ?_, fun j hj => ?_, rfl⟩,
    fun hp => step_of_host (turn_of_host hr hp rfl), fun hp => ?_, fun delta hp ht hc => step_of_elapsed hr hp ht hc⟩
  · exact (isPressed_setKey _ k k p).trans (if_pos rfl)
  · exact (isPressed_setKey _ k j p).trans (if_neg hj)
  · rw [step_of_host (turn_of_host hr hp rfl), applyMove, quit_of_running (s := { s with pending := rest }) hr]

/-- Settles O58: by the value of `playing` that the pull reads. -/
theorem pullAnswersSampleOrSilence : Obligations.PullAnswersSampleOrSilence := by
  intro s hcursor
  refine ⟨fun h => ?_, fun h => ?_, ?_⟩
  · rw [pull_of_playing h]
    exact ⟨rfl, succ_mod_eq_ite hcursor⟩
  · rw [pull_of_silent h]
    exact ⟨rfl, rfl⟩
  · cases h : readPlaying s with
    | true => rw [pull_of_playing h]
    | false => rw [pull_of_silent h]

/-- Settles O59: delivery and the tick write the record as they say, and a reading is found in it. -/
theorem staleReadsAreBounded : Obligations.StaleReadsAreBounded := by
  intro s
  refine ⟨fun _ => rfl, ⟨rfl, ?_, ?_⟩, fun hnow => ⟨fun h => held_of_readPlaying_true h hnow,
    held_of_readPlaying_false, readPlaying_of_only⟩⟩
  · simp [timerTick, State.setPlaying, Held.add]
  · simp [timerTick, State.setPlaying, Held.add]

end Sys2Proof.Claims
end

section
/-! PROOFS. The invariant (10_state.md, 20_memory.md, 60_exceptions.md): its parts by name, kept by every host move,
every timer tick and every end of a CPU tick. -/

namespace Sys2Proof.Claims

open Sys2Proof.Machine

/-- The part of the invariant that a fatal error need not leave. -/
structure InBounds (s : State) : Prop where
  stack_room : s.stack.length ≤ s.params.stackCapacity
  stack_addrs : ∀ a ∈ s.stack, a.toNat ≤ 4096
  pc_le : s.pc.toNat ≤ 4098
  wave_eq : s.wave = synthWave s.params.waveform
  cursor_lt : s.cursor < s.wave.length
  held : if s.playing then s.heldCur.high = true else s.heldCur.low = true

theorem inv_iff (s : State) :
    Inv s ↔ s.params.legal ∧ Memory.wf s.params s.mem = true ∧ (specified s.status = true → InBounds s) := by
  refine and_congr_right fun _ => and_congr_right fun _ => imp_congr_right fun _ => ?_
  constructor
  · rintro ⟨hroom, haddrs, hpc, hwave, hcursor, hheld⟩
    exact ⟨hroom, haddrs, hpc, hwave, hcursor, hheld⟩
  · rintro ⟨hroom, haddrs, hpc, hwave, hcursor, hheld⟩
    exact ⟨hroom, haddrs, hpc, hwave, hcursor, hheld⟩

theorem inBounds_of_running {s : State} (h : Inv s) (hr : s.status = .running) : InBounds s :=
  ((inv_iff s).mp h).2.2 (by rw [hr]; rfl)

/-! ## Host moves and timer ticks -/

theorem inBounds_pull {s : State} (h : InBounds s) : InBounds (pull s) := by
  have hwave : 0 < s.wave.length := Nat.zero_lt_of_lt h.cursor_lt
  cases hread : readPlaying s with
  | true =>
    rw [pull_of_playing hread]
    exact { h with cursor_lt := Nat.mod_lt _ hwave }
  | false =>
    rw [pull_of_silent hread]
    exact { h with }

theorem inBounds_applyMove (m : HostMove) {s : State} (h : InBounds s) (hr : s.status = .running) :
    InBounds (applyMove m s) := by
  cases m with
  | elapsed delta => exact { h with held := Held.only_holds s.playing }
  | setKey k p => exact { h with }
  | pull => exact inBounds_pull h
  | quit =>
    rw [applyMove, quit_of_running hr]
    exact { h with }
  | letRun => exact h

theorem inv_applyMove (m : HostMove) {s : State} (h : Inv s) (hr : s.status = .running) : Inv (applyMove m s) := by
  obtain ⟨hparams, -, hmem⟩ := applyMove_fields m s
  refine (inv_iff _).mpr ⟨?_, ?_, fun _ => inBounds_applyMove m (inBounds_of_running h hr) hr⟩
  · rw [hparams]
    exact h.1
  · rw [hparams, hmem]
    exact h.2.1

theorem inv_timerTick {s : State} (h : Inv s) : Inv (timerTick s) := by
  obtain ⟨hlegal, hwf, hbounds⟩ := (inv_iff s).mp h
  exact (inv_iff _).mpr ⟨hlegal, hwf, fun hs => { hbounds hs with held := Held.add_holds .. }⟩

/-! ## CPU ticks -/

theorem toNat_advanced_pc {s : State} {op : Word} (h : fetch s = .ok op) :
    s.advanced.pc.toNat = s.pc.toNat + 2 ∧ s.pc.toNat + 2 ≤ 4096 := by
  have hin : s.pc.toNat + 1 < memSize := by
    by_contra hout
    rcases fetch_cases s with ⟨hlt, -⟩ | ⟨-, hf⟩ | ⟨-, hf⟩
    · exact hout hlt
    · rw [hf] at h; cases h
    · rw [hf] at h; cases h
  simp only [memSize] at hin
  rw [State.advanced_pc, BitVec.toNat_add, BitVec.toNat_ofNat]
  omega

theorem absolute_le (nnn : Addr12) : (absolute nnn).toNat ≤ 4098 := by
  have := nnn.isLt
  rw [toNat_absolute]
  omega

/-- An instruction that runs on a pc of 2 to 4096 keeps the bounds: it moves pc by 2 at most, or to an address that fits
12 bits or that the stack held. -/
theorem Writes.inBounds {i : Instr} {s t : State} (h : Writes s i t) (hs : InBounds s) (hlo : 2 ≤ s.pc.toNat)
    (hhi : s.pc.toNat ≤ 4096) : InBounds t := by
  cases h with
  | skip i c =>
    refine { hs with pc_le := ?_ }
    show BitVec.toNat (if c then s.pc + 2#16 else s.pc) ≤ 4098
    split
    · rw [BitVec.toNat_add, BitVec.toNat_ofNat]
      omega
    · omega
  | jump nnn => exact { hs with pc_le := absolute_le nnn }
  | call nnn hroom =>
    have haddrs : ∀ a ∈ s.pc :: s.stack, a.toNat ≤ 4096 := List.forall_mem_cons.mpr ⟨hhi, hs.stack_addrs⟩
    exact { hs with stack_room := hroom, stack_addrs := haddrs, pc_le := absolute_le nnn }
  | @ret a rest hstack =>
    have haddrs := hs.stack_addrs
    have hroom := hs.stack_room
    rw [hstack] at haddrs hroom
    obtain ⟨ha, hrest⟩ := List.forall_mem_cons.mp haddrs
    exact { hs with stack_room := Nat.le_of_succ_le hroom, stack_addrs := hrest, pc_le := ha.trans (by decide) }
  | rewind x =>
    have hpc : (s.pc - 2#16).toNat ≤ 4098 := by bv_omega
    exact { hs with pc_le := hpc }
  | _ => exact { hs with }

theorem TickEnds.inv {s t : State} (h : Inv s) (hr : s.status = .running) (hends : TickEnds s t) : Inv t := by
  obtain ⟨hlegal, hwf, -⟩ := (inv_iff s).mp h
  have hs := inBounds_of_running h hr
  cases hends with
  | fetchFault | fault =>
    exact (inv_iff _).mpr ⟨hlegal, Memory.wf_ofCells _ _, fun hfatal => absurd hfatal (by simp [specified])⟩
  | keyRefused | fontRefused => exact (inv_iff _).mpr ⟨hlegal, hwf, fun _ => { hs with }⟩
  | unknown hf hd =>
    obtain ⟨hpc, hle⟩ := toNat_advanced_pc hf
    have hpc : s.advanced.pc.toNat ≤ 4098 := by omega
    exact (inv_iff _).mpr ⟨hlegal, hwf, fun _ => { hs with pc_le := hpc }⟩
  | executed hf hd he =>
    obtain ⟨hpc, hle⟩ := toNat_advanced_pc hf
    have hadvanced : InBounds s.advanced := { hs with pc_le := by omega }
    have hw := exec_writes he
    refine (inv_iff t).mpr ⟨?_, hw.wf hwf, fun _ => hw.inBounds hadvanced (by omega) (by omega)⟩
    rw [hw.params]
    exact hlegal

/-! ## The obligations -/

/-- Settles O14: by whose move the step was. -/
theorem stepKeepsTheInvariant : Obligations.StepKeepsTheInvariant := by
  intro s t h hstep
  cases stepTo_of_step hstep with
  | halted => exact h
  | move hr m rest n => exact inv_applyMove m (s := { s with pending := rest, free := n }) h hr
  | timer hr a rest => exact inv_timerTick h
  | @cpu rest t hruns hends => exact (TickEnds.inv (s := { s with pending := rest }) h hruns.1 hends :)

theorem inv_initial {p : Params} (h : p.legal) : Inv (State.initial p) := by
  refine (inv_iff _).mpr ⟨h, rfl, fun _ => ⟨Nat.zero_le _, by simp [State.initial], ?_, rfl, ?_, rfl⟩⟩
  · exact show (0x200#16).toNat ≤ 4098 by decide
  · exact (length_synthWave _).symm ▸ sampleCount_pos h.2.2.2.2.1

theorem Params.default_legal : Params.default.legal :=
  ⟨by decide, by decide, by decide, by decide, Config.waveform_legal, by decide⟩

/-- Settles O15: the default parameters are legal. -/
theorem resetMeetsTheInvariant : Obligations.ResetMeetsTheInvariant :=
  inv_initial Params.default_legal

end Sys2Proof.Claims
end

section
/-! PROOFS. Initialisation (10_state.md, 20_memory.md, 60_exceptions.md, 70_reset_and_hazards.md): what memory reads as
before anything is stored, what a ROM load does to it, and the waveform. -/

namespace Sys2Proof.Machine

/-! ## Memory before and after the load -/

theorem peek_initial (p : Params) (a : Nat) : (State.initial p).peek a = unlisted p a := rfl

theorem unlisted_font (p : Params) {k : Nat} (h : k < 80) : unlisted p (p.fontBase + k) = p.fontData.getD k 0#8 := by
  rw [unlisted, if_pos (by omega), Nat.add_sub_cancel_left]

theorem unlisted_of_outside {p : Params} {a : Nat} (h : a < p.fontBase ∨ p.fontBase + 80 ≤ a) :
    unlisted p a = 0#8 := by
  rw [unlisted, if_neg (by omega)]

theorem romLoad_of_fits (s : State) {file : List Byte} (hne : file ≠ []) (hmax : file.length ≤ romMax) :
    romLoad (some file) s = .ok (placeBytes s 0x200 file) := by
  cases file with
  | nil => exact absurd rfl hne
  | cons b bs => rw [romLoad, if_neg (Nat.not_lt.mpr hmax)]

theorem romLoad_of_too_large (s : State) {file : List Byte} (hmax : romMax < file.length) :
    romLoad (some file) s = .error (.romTooLarge file.length) := by
  cases file with
  | nil => exact absurd hmax (Nat.not_lt_zero _)
  | cons b bs => rw [romLoad, if_pos hmax]

/-! ## The waveform over the rationals (60_exceptions.md R253) -/

theorem sampleCount_eq_floor (w : WaveParams) :
    sampleCount w = ⌊(w.sampleRate : ℚ) * (w.durNum / w.durDen)⌋₊ := by
  rw [← mul_div_assoc, ← Nat.cast_mul, Nat.floor_div_eq_div, sampleCount]

theorem fract_phase (w : WaveParams) (k : Nat) :
    Int.fract ((k : ℚ) * (w.toneNum / w.toneDen) / w.sampleRate) =
      ((k * w.toneNum % (w.toneDen * w.sampleRate) : ℕ) : ℚ) / (w.toneDen * w.sampleRate : ℕ) := by
  rw [← Int.fract_div_natCast_eq_div_natCast_mod, ← mul_div_assoc, div_div, Nat.cast_mul, Nat.cast_mul]

/-- The cross-multiplied test of the model is the one over the rationals. -/
theorem inHighHalf_iff {w : WaveParams} (h : w.legal) (k : Nat) :
    inHighHalf w k = true ↔ Int.fract ((k : ℚ) * (w.toneNum / w.toneDen) / w.sampleRate) < 1 / 2 := by
  obtain ⟨hrate, -, hden, -⟩ := h
  have hpos : (0 : ℚ) < (w.toneDen * w.sampleRate : ℕ) := Nat.cast_pos.mpr (Nat.mul_pos hden hrate)
  rw [fract_phase, div_lt_div_iff₀ hpos two_pos, one_mul, mul_comm, inHighHalf, decide_eq_true_iff]
  exact_mod_cast Iff.rfl

end Sys2Proof.Machine

namespace Sys2Proof.Claims

open Sys2Proof.Machine

/-! ## The obligations -/

/-- Settles O6: the two sides of the bound. -/
theorem accessesOutsideMemoryFault : Obligations.AccessesOutsideMemoryFault := by
  intro s a v
  refine ⟨rfl, fun hout => memWrite_error hout, fun hin => ⟨s.poke a v, memWrite_ok hin, ?_⟩⟩
  rw [State.peek_poke, if_pos rfl]

/-- Settles O17: memory lists nothing, so it reads as the font and 0; every other field by definition. -/
theorem initialValues : Obligations.InitialValues := by
  refine ⟨rfl, fun p hlegal => ⟨fun r => ?_, rfl, rfl, rfl, rfl, rfl, rfl, fun x y => pixelAt_blankFrame x y,
    fun k => ?_, fun k hk => unlisted_font p hk, fun a ha => unlisted_of_outside ha, rfl, rfl, rfl, rfl, rfl⟩⟩
  · simp [State.reg, State.initial]
  · simp [State.isPressed, State.initial]

/-- Settles O18: the load places the file, and a legal font lies below 0x200, so that what the file leaves of memory
from there on is 0. -/
theorem romLoadPlacesTheImage : Obligations.RomLoadPlacesTheImage := by
  intro p file hlegal hpos hmax
  obtain ⟨-, -, hfont, -⟩ := hlegal
  refine ⟨_, romLoad_of_fits _ (List.ne_nil_of_length_pos hpos) hmax, State.placeBytes_eq .., fun k hk => ?_,
    fun a hpast _ => ?_, fun a hbelow => ?_⟩
  · exact State.peek_placeBytes_add _ _ _ hk
  · rw [sameBytesOutside_placeBytes _ _ _ a (.inr hpast), peek_initial, unlisted_of_outside (by omega)]
  · exact sameBytesOutside_placeBytes _ _ _ a (.inl hbelow)

/-- Settles O19: each file by the branch of the load that it takes. -/
theorem romLoadFailures : Obligations.RomLoadFailures :=
  fun p => ⟨rfl, rfl, fun _ hlarge => romLoad_of_too_large (State.initial p) hlarge, fun _ => rfl⟩

/-- Settles O60: the count and the half-period of the model, over the rationals. -/
theorem waveformIsASquareWave : Obligations.WaveformIsASquareWave := by
  intro w hlegal
  refine ⟨?_, ?_, fun k hk => ?_⟩
  · rw [length_synthWave, sampleCount_eq_floor]
  · rw [length_synthWave]
    exact sampleCount_pos hlegal
  · have hsample : (synthWave w).getD k 0 = squareSample w k := by
      rw [List.getD_eq_getElem _ _ hk]
      simp [synthWave]
    simp only [hsample, squareSample, inHighHalf_iff hlegal]

end Sys2Proof.Claims
end

section
/-! PROOFS. The scheduler (60_exceptions.md R242, R246): the drains of an iteration as steps of the machine, and the
number of their ticks. -/

namespace Sys2Proof.Claims

open Sys2Proof.Machine

/-! ## The drain of the timers -/

theorem run_succ_of_next {s t : State} (n : Nat) (h : step s = .next t) : core.run (n + 1) s = core.run n t := by
  have hstep : core.step s = .next t := h
  simp only [Host.Core.run, hstep]

theorem run_of_halted {s : State} (n : Nat) (h : s.status ≠ .running) : core.run n s = .next s := by
  induction n with
  | zero => rfl
  | succ n ih => rw [run_succ_of_next n (step_of_halted h), ih]

theorem step_eq_timerStep {s : State} (hr : s.status = .running) (hp : s.pending = [])
    (ht : s.params.timerPeriod ≤ s.accTimer) : step s = .next (timerStep s) := by
  rw [step_eq, turn_of_nil hr hp, coreTurn_timer ht]

/-- As many timer steps as there are whole periods are the drain of the timers. -/
theorem run_drainTimers (m n : Nat) {s : State} (hr : s.status = .running) (hp : s.pending = [])
    (hn : n * s.params.timerPeriod ≤ s.accTimer) : core.run (n + m) s = core.run m (drainTimers n s) := by
  induction n generalizing s with
  | zero => rw [Nat.zero_add, drainTimers]
  | succ n ih =>
    rw [Nat.succ_mul] at hn
    obtain ⟨hp', hparams, hstatus, hacc, -⟩ := timerStep_fields hp
    rw [Nat.add_right_comm, run_succ_of_next _ (step_eq_timerStep hr hp (by omega)), drainTimers]
    exact ih (hstatus.trans hr) hp' (by rw [hparams, hacc]; omega)

/-! ## The drain of the CPU -/

theorem step_eq_cpuStep {s : State} (hr : s.status = .running) (hp : s.pending = [])
    (ht : s.accTimer < s.params.timerPeriod) (hc : s.params.cpuPeriod ≤ s.accCpu) : step s = cpuStep s := by
  rw [step_eq, turn_of_nil hr hp, coreTurn_cpu ht hc]

/-- `CpuDrained k s t`: of what the scheduler reads, `t` differs from `s` in `k` CPU periods taken off. -/
structure CpuDrained (k : Nat) (s t : State) : Prop where
  status : t.status = .running
  pending : t.pending = []
  params : t.params = s.params
  accTimer : t.accTimer = s.accTimer
  accCpu : t.accCpu = s.accCpu - k * s.params.cpuPeriod

/-- A CPU step halts the machine or takes one period off. -/
theorem cpuStep_drained {s : State} (hr : s.status = .running) (hp : s.pending = []) :
    ∃ t, cpuStep s = .next t ∧ (t.status = .running → CpuDrained 1 s t) := by
  obtain ⟨t, htick, hends⟩ := cpuTick_ends s
  refine ⟨t.drainCpu, cpuStep_of_next hp htick, fun hrun => ?_⟩
  cases hends with
  | executed hf hd he =>
    rw [(exec_writes he).frame] at hrun ⊢
    exact ⟨hr, hp, rfl, rfl, by rw [Nat.one_mul]; rfl⟩
  | _ => cases hrun

theorem drainCpus_of_halted {s : State} (n : Nat) (h : s.status ≠ .running) : drainCpus n s = .next s := by
  cases n with
  | zero => rfl
  | succ n => rw [drainCpus, if_neg h]

/-- As many CPU steps as there are whole periods are the drain of the CPU, a halt in the middle included. -/
theorem run_eq_drainCpus (n : Nat) {s : State} (hp : s.pending = []) (ht : s.accTimer < s.params.timerPeriod)
    (hn : n * s.params.cpuPeriod ≤ s.accCpu) : core.run n s = drainCpus n s := by
  induction n generalizing s with
  | zero => rfl
  | succ n ih =>
    by_cases hr : s.status = .running
    · rw [Nat.succ_mul] at hn
      obtain ⟨t, hstep, hdrained⟩ := cpuStep_drained hr hp
      rw [run_succ_of_next n ((step_eq_cpuStep hr hp ht (by omega)).trans hstep), drainCpus, if_pos hr, hstep]
      by_cases hrun : t.status = .running
      · obtain ⟨-, hp', hparams, htimer, hcpu⟩ := hdrained hrun
        exact ih hp' (by rw [htimer, hparams]; exact ht) (by rw [hcpu, hparams]; omega)
      · exact (run_of_halted n hrun).trans (drainCpus_of_halted n hrun).symm
    · exact (run_of_halted _ hr).trans (drainCpus_of_halted _ hr).symm

/-- A drain that leaves the machine running has run all its ticks. -/
theorem drainCpus_drained (n : Nat) {s t : State} (hp : s.pending = []) (h : drainCpus n s = .next t)
    (hrun : t.status = .running) : CpuDrained n s t := by
  induction n generalizing s with
  | zero =>
    cases h
    exact ⟨hrun, hp, rfl, rfl, by rw [Nat.zero_mul, Nat.sub_zero]⟩
  | succ n ih =>
    by_cases hr : s.status = .running
    · obtain ⟨u, hstep, hdrained⟩ := cpuStep_drained hr hp
      simp only [drainCpus, if_pos hr, hstep] at h
      by_cases hu : u.status = .running
      · obtain ⟨-, hp', hparams, htimer, hcpu⟩ := hdrained hu
        obtain ⟨-, hpt, hparams', htimer', hcpu'⟩ := ih hp' h
        refine ⟨hrun, hpt, hparams'.trans hparams, htimer'.trans htimer, ?_⟩
        rw [hcpu', hcpu, hparams, Nat.sub_sub, ← Nat.add_mul, Nat.add_comm 1]
      · rw [drainCpus_of_halted n hu] at h
        cases h
        exact absurd hrun hu
    · rw [drainCpus_of_halted _ hr] at h
      cases h
      exact absurd hrun hr

/-! ## The iteration -/

/-- The state in which an iteration of `delta` begins to drain the CPU. -/
def timersDrained (delta : Nat) (s : State) : State :=
  drainTimers ((s.accTimer + delta) / s.params.timerPeriod) (deliver delta s)

theorem timersDrained_fields (delta : Nat) {s : State} (hp : s.pending = []) :
    (timersDrained delta s).pending = [] ∧ (timersDrained delta s).params = s.params ∧
      (timersDrained delta s).status = s.status ∧
      (timersDrained delta s).accTimer = (s.accTimer + delta) % s.params.timerPeriod ∧
      (timersDrained delta s).accCpu = s.accCpu + delta := by
  obtain ⟨hp', hparams, hstatus, htimer, hcpu⟩ :=
    drainTimers_fields ((s.accTimer + delta) / s.params.timerPeriod) (s := deliver delta s) hp
  refine ⟨hp', hparams, hstatus, htimer.trans ?_, hcpu⟩
  rw [Nat.mod_def, Nat.mul_comm]
  rfl

theorem iteration_of_running (delta : Nat) {s : State} (hr : s.status = .running) (hp : s.pending = []) :
    iteration delta s = drainCpus ((s.accCpu + delta) / s.params.cpuPeriod) (timersDrained delta s) := by
  obtain ⟨-, hparams, -, -, hcpu⟩ := timersDrained_fields delta hp
  rw [← hcpu, ← hparams, iteration, if_pos hr]
  rfl

theorem iteration_of_halted (delta : Nat) {s : State} (hr : s.status ≠ .running) :
    iteration delta s = .next s := if_neg hr

/-- An iteration that leaves the machine running leaves in each accumulator what its whole periods do not fill. -/
theorem iteration_remainders {delta : Nat} {s t : State} (hp : s.pending = []) (h : iteration delta s = .next t)
    (hrun : t.status = .running) :
    t.pending = [] ∧ t.params = s.params ∧ t.accTimer = (s.accTimer + delta) % s.params.timerPeriod ∧
      t.accCpu = (s.accCpu + delta) % s.params.cpuPeriod := by
  by_cases hr : s.status = .running
  · obtain ⟨hp', hparams, -, htimer, hcpu⟩ := timersDrained_fields delta hp
    rw [iteration_of_running delta hr hp] at h
    obtain ⟨-, hpt, hparams', htimer', hcpu'⟩ := drainCpus_drained _ hp' h hrun
    refine ⟨hpt, hparams'.trans hparams, htimer'.trans htimer, ?_⟩
    rw [hcpu', hcpu, hparams, Nat.mod_def, Nat.mul_comm]
  · rw [iteration_of_halted delta hr] at h
    cases h
    exact absurd hrun hr

/-- Once its time is delivered, the steps of an iteration are its drains in turn. -/
theorem run_deliver (delta : Nat) {s : State} (hlegal : s.params.legal) (hr : s.status = .running)
    (hp : s.pending = []) :
    core.run ((s.accTimer + delta) / s.params.timerPeriod + (s.accCpu + delta) / s.params.cpuPeriod) (deliver delta s) =
      iteration delta s := by
  obtain ⟨-, -, htpos, -⟩ := Params.periods hlegal
  obtain ⟨hp', hparams, -, htimer, hcpu⟩ := timersDrained_fields delta hp
  have ht : (timersDrained delta s).accTimer < (timersDrained delta s).params.timerPeriod := by
    rw [htimer, hparams]
    exact Nat.mod_lt _ htpos
  have hn : (s.accCpu + delta) / s.params.cpuPeriod * (timersDrained delta s).params.cpuPeriod ≤
      (timersDrained delta s).accCpu := by
    rw [hcpu, hparams]
    exact Nat.div_mul_le_self ..
  have htimers := run_drainTimers ((s.accCpu + delta) / s.params.cpuPeriod) _ (s := deliver delta s) hr hp
    (Nat.div_mul_le_self ..)
  exact htimers.trans ((run_eq_drainCpus _ hp' ht hn).trans (iteration_of_running delta hr hp).symm)

/-- Taking whole periods off as they come loses none of them (60_exceptions.md R246). -/
theorem add_div_add_mod_div (a b p : Nat) (hp : 0 < p) : a / p + (a % p + b) / p = (a + b) / p := by
  conv_rhs => rw [← Nat.div_add_mod a p, Nat.add_assoc, Nat.mul_add_div hp]

/-- Iterations that run throughout take the whole periods of the accumulators and of the total time. -/
theorem iterateRunning_counts {deltas : List Nat} {s u : State} {timers cpus : Nat} (hlegal : s.params.legal)
    (hp : s.pending = []) (ht : s.accTimer < s.params.timerPeriod) (hc : s.accCpu < s.params.cpuPeriod)
    (h : iterateRunning deltas s = some (timers, cpus, u)) :
    timers = (s.accTimer + deltas.sum) / s.params.timerPeriod ∧
      cpus = (s.accCpu + deltas.sum) / s.params.cpuPeriod := by
  induction deltas generalizing s timers cpus with
  | nil =>
    cases h
    exact ⟨(Nat.div_eq_of_lt ht).symm, (Nat.div_eq_of_lt hc).symm⟩
  | cons delta rest ih =>
    obtain ⟨-, -, htpos, hcpos⟩ := Params.periods hlegal
    unfold iterateRunning at h
    split at h
    · next t hiter =>
      split_ifs at h with hrun
      split at h
      · next timers' cpus' u' hrest =>
        cases h
        obtain ⟨hp', hparams, htimer, hcpu⟩ := iteration_remainders hp hiter hrun
        obtain ⟨h1, h2⟩ := ih (hparams ▸ hlegal) hp' (by rw [htimer, hparams]; exact Nat.mod_lt _ htpos)
          (by rw [hcpu, hparams]; exact Nat.mod_lt _ hcpos) hrest
        rw [h1, h2, hparams, htimer, hcpu, add_div_add_mod_div _ _ _ htpos, add_div_add_mod_div _ _ _ hcpos,
          List.sum_cons, Nat.add_assoc, Nat.add_assoc]
        exact ⟨rfl, rfl⟩
      · cases h
    · cases h
    · cases h

/-! ## The obligations -/

/-- Settles O55: one step for the delivery, then the drains. -/
theorem iterationIsItsSteps : Obligations.IterationIsItsSteps := by
  intro s delta hlegal hr hp ht hc
  rw [Nat.add_assoc, Nat.add_comm 1]
  exact (run_succ_of_next _ (step_of_elapsed hr hp ht hc)).trans
    (run_deliver delta (s := { s with pending := [] }) hlegal hr rfl)

/-- Settles O56: a second is 60 timer periods and P_CPU_HZ CPU periods, so the counts of whole periods are the floors. -/
theorem tickCountsDependOnTotalTime : Obligations.TickCountsDependOnTotalTime := by
  intro s u deltas timers cpus hlegal htimer hcpu hp h
  obtain ⟨hseconds, hseconds', htpos, hcpos⟩ := Params.periods hlegal
  obtain ⟨h1, h2⟩ := iterateRunning_counts hlegal hp (by omega) (by omega) h
  rw [htimer, Nat.zero_add] at h1
  rw [hcpu, Nat.zero_add] at h2
  constructor
  · rw [← hseconds, Nat.mul_div_mul_left _ _ (by decide), h1]
  · rw [← hseconds', Nat.mul_div_mul_left _ _ hlegal.1, h2]

end Sys2Proof.Claims
end
